-- ==== Sys2Proof/Word.lean ====
section
/-! DEFINITION. Word.lean: the word types of the machine (spec 00_scope.md R5, R7). All values are unsigned;
there is no signed quantity anywhere. -/

namespace Sys2Proof

/-- A memory byte, a general register, a timer: 8 bits (R5). -/
abbrev Byte := BitVec 8

/-- An instruction word, `I`, `pc`, a stack entry: 16 bits (R5, R50). -/
abbrev Word := BitVec 16

/-- The literal `NNN = op[11:0]` (R51, R52). -/
abbrev Addr12 := BitVec 12

/-- A register number, as the fields `X` and `Y` give it (R11, R52); also a key index (R19). -/
abbrev Reg := Fin 16

end Sys2Proof
end

