-- ==== Sys2Proof/Syntax.lean ====
section
/-! DEFINITION. Syntax.lean: the 34 instructions of 30_encoding.md R55 (spec/opcode_table.json), one constructor per
row, in the table's order. The operand types are the fields' widths (R51, R52), so every term is an instruction the
encoding can spell. The canonical name of each is its hexadecimal pattern (R59); constructors use the aliases. -/

namespace Sys2Proof

inductive Instr where
  /-- 00E0: clear the framebuffer (R120). -/
  | cls
  /-- 00EE: return from subroutine (R80). -/
  | ret
  /-- 1NNN: jump (R81). -/
  | jp (nnn : Addr12)
  /-- 2NNN: call (R82). -/
  | call (nnn : Addr12)
  /-- 3XNN: skip if `V[X] = NN` (R83). -/
  | seImm (x : Reg) (nn : Byte)
  /-- 4XNN: skip if `V[X] ≠ NN` (R84). -/
  | sneImm (x : Reg) (nn : Byte)
  /-- 5XY0: skip if `V[X] = V[Y]` (R85). -/
  | seReg (x y : Reg)
  /-- 6XNN: load literal (R90). -/
  | ldImm (x : Reg) (nn : Byte)
  /-- 7XNN: add literal, no flag (R91). -/
  | addImm (x : Reg) (nn : Byte)
  /-- 8XY0: move (R92). -/
  | ldReg (x y : Reg)
  /-- 8XY1: OR (R93). -/
  | orReg (x y : Reg)
  /-- 8XY2: AND (R94). -/
  | andReg (x y : Reg)
  /-- 8XY3: XOR (R95). -/
  | xorReg (x y : Reg)
  /-- 8XY4: add with carry out (R96). -/
  | addReg (x y : Reg)
  /-- 8XY5: `V[X] − V[Y]` (R97). -/
  | subReg (x y : Reg)
  /-- 8XY6: shift right; `Y` is present in the word and ignored (R98, R58). -/
  | shr (x y : Reg)
  /-- 8XY7: `V[Y] − V[X]` (R99). -/
  | subnReg (x y : Reg)
  /-- 8XYE: shift left; `Y` is present in the word and ignored (R100, R58). -/
  | shl (x y : Reg)
  /-- 9XY0: skip if `V[X] ≠ V[Y]` (R86). -/
  | sneReg (x y : Reg)
  /-- ANNN: load `I` (R110). -/
  | ldIndex (nnn : Addr12)
  /-- BNNN: jump to `NNN + V[0]` (R87). -/
  | jpV0 (nnn : Addr12)
  /-- CXNN: random byte under a mask (R104). -/
  | rnd (x : Reg) (nn : Byte)
  /-- DXYN: draw a sprite of `N` rows (R121). -/
  | drw (x y : Reg) (n : Fin 16)
  /-- EX9E: skip if key pressed (R130). -/
  | skp (x : Reg)
  /-- EXA1: skip if key not pressed (R131). -/
  | sknp (x : Reg)
  /-- FX07: read the delay timer (R132). -/
  | ldVxDt (x : Reg)
  /-- FX0A: wait for a key (R133). -/
  | ldKey (x : Reg)
  /-- FX15: set the delay timer (R134). -/
  | ldDtVx (x : Reg)
  /-- FX18: set the sound timer (R135). -/
  | ldStVx (x : Reg)
  /-- FX1E: add register to `I` (R111). -/
  | addIndex (x : Reg)
  /-- FX29: point `I` at a font glyph (R112). -/
  | ldFont (x : Reg)
  /-- FX33: store binary-coded decimal (R113). -/
  | ldBcd (x : Reg)
  /-- FX55: store `V[0]` to `V[X]` (R114). -/
  | storeRegs (x : Reg)
  /-- FX65: load `V[0]` to `V[X]` (R115). -/
  | loadRegs (x : Reg)
  deriving DecidableEq, Repr

end Sys2Proof
end

