-- ==== Sys2Proof/WellFormed.lean ====
section
/-! DEFINITION. WellFormed.lean: which 16-bit words spell an instruction (30_encoding.md R56, the exhaustive list of
unknown encodings), written group by group from that list and not from the decoder's table. A term of `Instr` needs
no check of its own: its operand types are exactly the widths of the fields (R52), so every term is well formed. -/

namespace Sys2Proof

/-- `T = 0`: only 00E0 and 00EE. -/
def knownGroup0 (n : Nat) : Bool := [0x00E0, 0x00EE].contains n

/-- `T = 5` and `T = 9`: only `N = 0`. -/
def knownGroup59 (low : Nat) : Bool := [0].contains low

/-- `T = 8`: every `N` but 8 to 0xD and 0xF. -/
def knownGroup8 (low : Nat) : Bool := [0, 1, 2, 3, 4, 5, 6, 7, 0xE].contains low

/-- `T = 0xE`: only `NN` = 0x9E and 0xA1. -/
def knownGroupE (byte : Nat) : Bool := [0x9E, 0xA1].contains byte

/-- `T = 0xF`: only the nine listed `NN`. -/
def knownGroupF (byte : Nat) : Bool := [0x07, 0x0A, 0x15, 0x18, 0x1E, 0x29, 0x33, 0x55, 0x65].contains byte

/-- The table of R56 on a word's number, its top nibble `T = op[15:12]`, its low nibble and its low byte. -/
def knownParts (n top low byte : Nat) : Bool :=
  match top with
  | 0x0 => knownGroup0 n
  | 0x5 => knownGroup59 low
  | 0x8 => knownGroup8 low
  | 0x9 => knownGroup59 low
  | 0xE => knownGroupE byte
  | 0xF => knownGroupF byte
  | _ => true

/-- Whether a word is outside the list of R56, so that it decodes. -/
def knownWord (op : Word) : Bool :=
  knownParts op.toNat (op.toNat / 4096) (op.toNat % 16) (op.toNat % 256)

end Sys2Proof
end

