-- ==== Sys2Proof/Decode.lean ====
section
/-! DEFINITION. Decode.lean: the decoder, from the mask and match columns of 30_encoding.md R55 under the strict rule
R54, and then the encoder, from the formats of R53. -/

namespace Sys2Proof

/-- Why bytes are no instruction. -/
inductive DecodeError where
  /-- Fewer than two bytes: every instruction is one 16-bit word (R50). -/
  | truncated
  /-- The word matches no row of R55 (R54). -/
  | unknownOpcode (op : Word)
  deriving DecidableEq, Repr

/-- What decoding answers: a value, or a rejection by name. -/
inductive Decoded (α : Type) where
  | ok (value : α)
  | error (reason : DecodeError)
  deriving DecidableEq, Repr

/-- `X = op[11:8]` (R51, R52). -/
def fieldX (op : Word) : Reg := (op.extractLsb' 8 4).toFin

/-- `Y = op[7:4]` (R51). -/
def fieldY (op : Word) : Reg := (op.extractLsb' 4 4).toFin

/-- `N = op[3:0]` (R51). -/
def fieldN (op : Word) : Fin 16 := (op.extractLsb' 0 4).toFin

/-- `NN = op[7:0]` (R51). -/
def fieldNN (op : Word) : Byte := op.extractLsb' 0 8

/-- `NNN = op[11:0]` (R51). -/
def fieldNNN (op : Word) : Addr12 := op.extractLsb' 0 12

/-- One row of R55: the word is this instruction when `op & mask = pattern` (R54). -/
structure Row where
  mnemonic : String
  mask : Word
  pattern : Word
  build : Word → Instr

/-- `(op & mask) == match` (R54). -/
def Row.accepts (r : Row) (op : Word) : Bool := (op &&& r.mask) == r.pattern

/-- The opcode map of R55, in its order; 34 rows, matched strictly (C1, C2, D6). UNVERIFIED (log entry 12). -/
def rows : List Row := [
  ⟨"00E0", 0xFFFF, 0x00E0, fun _ => .cls⟩,
  ⟨"00EE", 0xFFFF, 0x00EE, fun _ => .ret⟩,
  ⟨"1NNN", 0xF000, 0x1000, fun op => .jp (fieldNNN op)⟩,
  ⟨"2NNN", 0xF000, 0x2000, fun op => .call (fieldNNN op)⟩,
  ⟨"3XNN", 0xF000, 0x3000, fun op => .seImm (fieldX op) (fieldNN op)⟩,
  ⟨"4XNN", 0xF000, 0x4000, fun op => .sneImm (fieldX op) (fieldNN op)⟩,
  ⟨"5XY0", 0xF00F, 0x5000, fun op => .seReg (fieldX op) (fieldY op)⟩,
  ⟨"6XNN", 0xF000, 0x6000, fun op => .ldImm (fieldX op) (fieldNN op)⟩,
  ⟨"7XNN", 0xF000, 0x7000, fun op => .addImm (fieldX op) (fieldNN op)⟩,
  ⟨"8XY0", 0xF00F, 0x8000, fun op => .ldReg (fieldX op) (fieldY op)⟩,
  ⟨"8XY1", 0xF00F, 0x8001, fun op => .orReg (fieldX op) (fieldY op)⟩,
  ⟨"8XY2", 0xF00F, 0x8002, fun op => .andReg (fieldX op) (fieldY op)⟩,
  ⟨"8XY3", 0xF00F, 0x8003, fun op => .xorReg (fieldX op) (fieldY op)⟩,
  ⟨"8XY4", 0xF00F, 0x8004, fun op => .addReg (fieldX op) (fieldY op)⟩,
  ⟨"8XY5", 0xF00F, 0x8005, fun op => .subReg (fieldX op) (fieldY op)⟩,
  ⟨"8XY6", 0xF00F, 0x8006, fun op => .shr (fieldX op) (fieldY op)⟩,
  ⟨"8XY7", 0xF00F, 0x8007, fun op => .subnReg (fieldX op) (fieldY op)⟩,
  ⟨"8XYE", 0xF00F, 0x800E, fun op => .shl (fieldX op) (fieldY op)⟩,
  ⟨"9XY0", 0xF00F, 0x9000, fun op => .sneReg (fieldX op) (fieldY op)⟩,
  ⟨"ANNN", 0xF000, 0xA000, fun op => .ldIndex (fieldNNN op)⟩,
  ⟨"BNNN", 0xF000, 0xB000, fun op => .jpV0 (fieldNNN op)⟩,
  ⟨"CXNN", 0xF000, 0xC000, fun op => .rnd (fieldX op) (fieldNN op)⟩,
  ⟨"DXYN", 0xF000, 0xD000, fun op => .drw (fieldX op) (fieldY op) (fieldN op)⟩,
  ⟨"EX9E", 0xF0FF, 0xE09E, fun op => .skp (fieldX op)⟩,
  ⟨"EXA1", 0xF0FF, 0xE0A1, fun op => .sknp (fieldX op)⟩,
  ⟨"FX07", 0xF0FF, 0xF007, fun op => .ldVxDt (fieldX op)⟩,
  ⟨"FX0A", 0xF0FF, 0xF00A, fun op => .ldKey (fieldX op)⟩,
  ⟨"FX15", 0xF0FF, 0xF015, fun op => .ldDtVx (fieldX op)⟩,
  ⟨"FX18", 0xF0FF, 0xF018, fun op => .ldStVx (fieldX op)⟩,
  ⟨"FX1E", 0xF0FF, 0xF01E, fun op => .addIndex (fieldX op)⟩,
  ⟨"FX29", 0xF0FF, 0xF029, fun op => .ldFont (fieldX op)⟩,
  ⟨"FX33", 0xF0FF, 0xF033, fun op => .ldBcd (fieldX op)⟩,
  ⟨"FX55", 0xF0FF, 0xF055, fun op => .storeRegs (fieldX op)⟩,
  ⟨"FX65", 0xF0FF, 0xF065, fun op => .loadRegs (fieldX op)⟩]

/-- Decode one word: the row that accepts it, or `unknownOpcode` by name (R54). -/
def decode (op : Word) : Decoded Instr :=
  match rows.find? (fun r => r.accepts op) with
  | some r => .ok (r.build op)
  | none => .error (.unknownOpcode op)

/-- The word two bytes spell, high byte first (R32, R50). -/
def wordOfBytes (hi lo : Byte) : Word := hi ++ lo

/-- The byte of a word that lies at the lower address, then the other (R32). -/
def bytesOfWord (op : Word) : List Byte := [op.extractLsb' 8 8, op.extractLsb' 0 8]

/-- Decode the instruction at the head of a list of bytes, with the bytes that follow it (R50). -/
def decodeBytes : List Byte → Decoded (Instr × List Byte)
  | hi :: lo :: rest =>
    match decode (wordOfBytes hi lo) with
    | .ok i => .ok (i, rest)
    | .error e => .error e
  | _ => .error .truncated

/-- The word a row of the opcode table gives: `nbits` bits of `w`, every bit above them 0. Every row has 16 bits. -/
def tableWord (nbits w : Nat) : Word := BitVec.ofNat 16 (w % 2 ^ nbits)

/-- The instruction the decoder reads from the word `w` of an opcode-table row, laid out as memory holds it. -/
def decodeTableWord (nbits w : Nat) : Option Instr :=
  match decodeBytes (bytesOfWord (tableWord nbits w)) with
  | .ok (i, _) => some i
  | .error _ => none

/-- Format `NNN`, `hNNN` (R53). -/
def wordNNN (t : Nat) (nnn : Addr12) : Word := BitVec.ofNat 16 (4096 * t + nnn.toNat)

/-- Format `XNN`, `hXNN` (R53). -/
def wordXNN (t : Nat) (x : Reg) (nn : Byte) : Word := BitVec.ofNat 16 (4096 * t + 256 * x.val + nn.toNat)

/-- Formats `XY`, `hXYh`, and `XYN`, `hXYN` (R53). -/
def wordXYN (t : Nat) (x y : Reg) (n : Fin 16) : Word :=
  BitVec.ofNat 16 (4096 * t + 256 * x.val + 16 * y.val + n.val)

/-- Format `X`, `hXhh` (R53). -/
def wordX (t : Nat) (x : Reg) (hh : Nat) : Word := BitVec.ofNat 16 (4096 * t + 256 * x.val + hh)

/-- The word of an instruction, from the Name column of R55 and the formats of R53. -/
def encode : Instr → Word
  | .cls => 0x00E0
  | .ret => 0x00EE
  | .jp nnn => wordNNN 0x1 nnn
  | .call nnn => wordNNN 0x2 nnn
  | .seImm x nn => wordXNN 0x3 x nn
  | .sneImm x nn => wordXNN 0x4 x nn
  | .seReg x y => wordXYN 0x5 x y 0x0
  | .ldImm x nn => wordXNN 0x6 x nn
  | .addImm x nn => wordXNN 0x7 x nn
  | .ldReg x y => wordXYN 0x8 x y 0x0
  | .orReg x y => wordXYN 0x8 x y 0x1
  | .andReg x y => wordXYN 0x8 x y 0x2
  | .xorReg x y => wordXYN 0x8 x y 0x3
  | .addReg x y => wordXYN 0x8 x y 0x4
  | .subReg x y => wordXYN 0x8 x y 0x5
  | .shr x y => wordXYN 0x8 x y 0x6
  | .subnReg x y => wordXYN 0x8 x y 0x7
  | .shl x y => wordXYN 0x8 x y 0xE
  | .sneReg x y => wordXYN 0x9 x y 0x0
  | .ldIndex nnn => wordNNN 0xA nnn
  | .jpV0 nnn => wordNNN 0xB nnn
  | .rnd x nn => wordXNN 0xC x nn
  | .drw x y n => wordXYN 0xD x y n
  | .skp x => wordX 0xE x 0x9E
  | .sknp x => wordX 0xE x 0xA1
  | .ldVxDt x => wordX 0xF x 0x07
  | .ldKey x => wordX 0xF x 0x0A
  | .ldDtVx x => wordX 0xF x 0x15
  | .ldStVx x => wordX 0xF x 0x18
  | .addIndex x => wordX 0xF x 0x1E
  | .ldFont x => wordX 0xF x 0x29
  | .ldBcd x => wordX 0xF x 0x33
  | .storeRegs x => wordX 0xF x 0x55
  | .loadRegs x => wordX 0xF x 0x65

end Sys2Proof
end

