-- ==== Sys2Proof/Config.lean ====
section
/-! DEFINITION. Config.lean: the three parameters the spec leaves open (00_scope.md R6) and the one free value
(42_alu.md R104). A machine carries its parameters in `State.params`, so a statement over every state holds for
every value of them. -/

namespace Sys2Proof

/-- `FX29_PC_DELTA`, 0 or 2 (R6, R112; decision D9). -/
inductive Fx29PcDelta where
  | zero
  | two
  deriving DecidableEq, Repr

/-- The named parameters of R6: fixed for one machine, never changed by a step. -/
structure Params where
  /-- `FONT`: the 80 bytes of memory 0 to 79 after reset (R13, D2). -/
  font : Vector Byte 80
  /-- `FX29_PC_DELTA`: how far FX29 advances `pc` (D9). -/
  fx29PcDelta : Fx29PcDelta
  /-- `KEYWAIT_BLOCKED_TICK`: whether the timers tick in a Blocked FX0A cycle (D11). -/
  keywaitBlockedTick : Bool
  deriving DecidableEq, Repr

/-- The spec default of `FONT`: the table of R13, which the spec marks as general knowledge, not in the source.
PRESUMED (log entry 1). -/
def Params.customaryFont : Vector Byte 80 := #v[
  0xF0, 0x90, 0x90, 0x90, 0xF0,
  0x20, 0x60, 0x20, 0x20, 0x70,
  0xF0, 0x10, 0xF0, 0x80, 0xF0,
  0xF0, 0x10, 0xF0, 0x10, 0xF0,
  0x90, 0x90, 0xF0, 0x10, 0x10,
  0xF0, 0x80, 0xF0, 0x10, 0xF0,
  0xF0, 0x80, 0xF0, 0x90, 0xF0,
  0xF0, 0x10, 0x20, 0x40, 0x40,
  0xF0, 0x90, 0xF0, 0x90, 0xF0,
  0xF0, 0x90, 0xF0, 0x10, 0xF0,
  0xF0, 0x90, 0xF0, 0x90, 0x90,
  0xE0, 0x90, 0xE0, 0x90, 0xE0,
  0xF0, 0x80, 0x80, 0x80, 0xF0,
  0xE0, 0x90, 0x90, 0x90, 0xE0,
  0xF0, 0x80, 0xF0, 0x80, 0xF0,
  0xF0, 0x80, 0xF0, 0x80, 0x80]

/-- The spec defaults of R6. -/
def Params.default : Params where
  font := Params.customaryFont
  fx29PcDelta := .two
  keywaitBlockedTick := false

/-- The byte the environment supplies to the `n`-th CXNN (R104, D21): a free value. It has no body, so no proof can
know one of its values, and a statement about it holds whatever it is. DESIGN CHOICE
(log entry 2). -/
opaque Config.rnd : Nat → Byte

end Sys2Proof
end

