-- ==== Sys2Proof/Machine/State.lean ====
section
/-! DEFINITION. Machine/State.lean: every piece of state of 10_state.md, the fault record of 60_exceptions.md R140,
the output events of R158 and R159, and the machine right after reset (R24). -/

namespace Sys2Proof.Machine

/-- The one cause of a LoadError inside the core (R142; conflict C6). -/
inductive LoadCause where
  | capacityExceeded
  deriving DecidableEq, Repr

/-- The fault records of R140. A cycle that raises one answers a next state whose `fault` latch holds the record
(R148); no step ever answers `Outcome.fault`, because R78 gives the halted machine's cycle its effect too. -/
inductive Fault where
  /-- Latched by the decode of any cycle whose word matches no row (R141). Safe: the spec's own fault; where the
  reference decoder is looser (D6) the model stops. -/
  | unknownOpcode (op pc : Word)
  /-- Latched by the host operation LoadProgram when the image is longer than 3584 bytes (R142). Safe. -/
  | loadError (cause : LoadCause) (len : Nat)
  /-- Latched by 2NNN when `sp = 16` (R143). Safe. -/
  | stackOverflow (pc : Word)
  /-- Latched by 00EE when `sp = 0` (R144). Safe. -/
  | stackUnderflow (pc : Word)
  /-- Latched by the fetch, DXYN, FX33, FX55 and FX65 on an address above 4095 (R145, D4). Safe. -/
  | memoryOutOfBounds (addr : Nat)
  /-- Latched by EX9E and EXA1 when `V[X] > 15` (R146, D19). Safe. -/
  | keyIndexOutOfRange (v : Byte)
  /-- Latched by DXYN when a lit sprite bit falls outside the grid (R147, D17). Safe. -/
  | displayOutOfBounds (x y : Nat)
  deriving DecidableEq, Repr

/-- Reasons to have no meaning. -/
inductive Refusal where
  /-- An instruction that exec's arm rejects by name. No arm does: every instruction has its meaning. Safe. -/
  | notModelled (mnemonic : String)
  deriving DecidableEq, Repr

/-- The framebuffer: 2048 one-bit pixels, pixel `(x, y)` at index `x + 64*y` (R18, R42). -/
abbrev Frame := BitVec 2048

/-- The output events of a cycle (R158, R159). -/
inductive Event where
  /-- The framebuffer after the emitting instruction's update. -/
  | frameReady (snapshot : Frame)
  | beep
  deriving DecidableEq, Repr

/-- The three kinds of result of a cycle that R70 says a model must keep apart. -/
inductive CycleResult where
  | normal
  | blocked
  | faulted
  deriving DecidableEq, Repr

/-- Main memory in canonical form: the cells whose byte is not the one they hold after reset (see
`Memory.background`), addresses rising. -/
abbrev Memory := List Host.Cell

/-- The machine. The first twelve fields are the spec's state (R22, R24); the last four are the model's own:
DESIGN CHOICE (log entry 10). -/
structure State where
  /-- `V[0]` to `V[15]`; `V[15]` is `VF` (R11, R12). -/
  v : Vector Byte 16
  /-- Main memory, 4096 bytes (R13). -/
  mem : Memory
  /-- The index register `I` (R14). -/
  index : Word
  /-- The program counter (R15). -/
  pc : Word
  /-- The stack pointer, 0 to 16 (R16). -/
  sp : Fin 17
  /-- `STACK[0]` to `STACK[15]` (R16). -/
  stack : Vector Word 16
  /-- The delay timer (R17). -/
  dt : Byte
  /-- The sound timer (R17). -/
  st : Byte
  /-- The framebuffer (R18). -/
  fb : Frame
  /-- The keypad (R19). -/
  keys : Vector Bool 16
  /-- `current_opcode` (R20). -/
  currentOpcode : Word
  /-- The fault latch (R21). -/
  fault : Option Fault
  /-- The model's own: the parameters of R6, which no step changes. -/
  params : Params
  /-- The model's own: how many bytes `rnd` have been drawn (R104); `Config.rnd draws` is the next one. -/
  draws : Nat
  /-- The model's own: the events emitted so far, in emission order (R158). -/
  events : List Event
  /-- The model's own: the kind of result of the latest cycle (R70), none before the first. -/
  result : Option CycleResult
  deriving DecidableEq, Repr

/-- The machine right after Construct (R24, R170, R171), for given parameters. Memory lists nothing: an unlisted
address reads as R24 says it does after reset. UNVERIFIED where the values are the spec's decision D22 (log entry 8). -/
def State.resetWith (p : Params) : State where
  v := Vector.replicate 16 0
  mem := []
  index := 0
  pc := 512
  sp := 0
  stack := Vector.replicate 16 0
  dt := 0
  st := 0
  fb := 0
  keys := Vector.replicate 16 false
  currentOpcode := 0
  fault := none
  params := p
  draws := 0
  events := []
  result := none

/-- The machine right after reset, with the spec defaults of the parameters (R6). -/
def State.reset : State := State.resetWith Params.default

end Sys2Proof.Machine
end

