-- ==== Sys2Proof/Machine/Ops.lean ====
section
/-! DEFINITION. Machine/Ops.lean: the named operations over memory, registers, stack, framebuffer and events, the
bounds check of 20_memory.md R36, and the one operation that raises a fault (60_exceptions.md R148). -/

namespace Sys2Proof.Machine

/-- What an instruction's meaning answers. -/
abbrev Result := Host.Outcome State Fault Refusal

/-! ## Main memory -/

/-- What an unlisted address reads as: the content after reset, `FONT` at 0 to 79 and zero above (R24, R31). -/
def Memory.background (font : Vector Byte 80) (a : Nat) : Byte := font[a]?.getD 0

/-- The listed byte of an address, if it is listed. -/
def Memory.find : Memory → Nat → Option Byte
  | [], _ => none
  | (k, w) :: m, a => if k = a then some w else Memory.find m a

/-- The byte an address holds. -/
def Memory.read (font : Vector Byte 80) (m : Memory) (a : Nat) : Byte :=
  (Memory.find m a).getD (Memory.background font a)

/-- List a byte, keeping addresses rising. -/
def Memory.insert : Memory → Nat → Byte → Memory
  | [], a, b => [(a, b)]
  | (k, w) :: m, a, b =>
    if a < k then (a, b) :: (k, w) :: m
    else if a = k then (a, b) :: m
    else (k, w) :: Memory.insert m a b

/-- Take an address off the list. -/
def Memory.remove : Memory → Nat → Memory
  | [], _ => []
  | (k, w) :: m, a => if k = a then Memory.remove m a else (k, w) :: Memory.remove m a

/-- Write one byte (R35). Writing what an unlisted address reads as takes the address off the list. -/
def Memory.write (font : Vector Byte 80) (m : Memory) (a : Nat) (b : Byte) : Memory :=
  if b = Memory.background font a then Memory.remove m a else Memory.insert m a b

/-- Write bytes at ascending addresses (R35). -/
def Memory.store (font : Vector Byte 80) : Memory → Nat → List Byte → Memory
  | m, _, [] => m
  | m, a, b :: bs => Memory.store font (Memory.write font m a b) (a + 1) bs

/-- The canonical form: addresses rising from `lo` and below 4096, no entry equal to the background. -/
def Memory.wfFrom (font : Vector Byte 80) : Nat → Memory → Bool
  | _, [] => true
  | lo, (k, w) :: m =>
    decide (lo ≤ k) && decide (k < 4096) && decide (w ≠ Memory.background font k) && Memory.wfFrom font (k + 1) m

/-- The canonical form of memory. -/
def Memory.wf (font : Vector Byte 80) (m : Memory) : Bool := Memory.wfFrom font 0 m

/-- `MemRead(addr, 1)` (R8) of an address the bounds check has passed. -/
def State.readByte (s : State) (a : Nat) : Byte := Memory.read s.params.font s.mem a

/-- `MemWrite` (R8) of ascending bytes the bounds check has passed; below 512 too. UNVERIFIED: the spec's decision D3 (log
entry 13). -/
def State.storeBytes (s : State) (a : Nat) (bs : List Byte) : State :=
  { s with mem := Memory.store s.params.font s.mem a bs }

/-- The bounds check of an access to `n` bytes from `base` (R36): the lowest address above 4095, if there is one.
Addresses are unbounded integers; they do not wrap. UNVERIFIED: the spec's decision D4 (log entry 3). -/
def badAddress (base n : Nat) : Option Nat := if 0 < n ∧ 4095 < base + n - 1 then some (max base 4096) else none

/-! ## Registers -/

/-- `V[r]` (R8, R11). -/
def State.getV (s : State) (r : Reg) : Byte := s.v[r.val]

/-- `V[r] <- b` (R8, R11). -/
def State.setV (s : State) (r : Reg) (b : Byte) : State := { s with v := s.v.set r.val b }

/-- The number of the flag register `VF` (R12). -/
abbrev vf : Reg := 15

/-- `I <- w`. -/
def State.setIndex (s : State) (w : Word) : State := { s with index := w }

/-- `pc <- w`, modulo 65536 (R15). UNVERIFIED: the spec's decision D26 (log entry 14). -/
def State.setPc (s : State) (w : Word) : State := { s with pc := w }

/-- `pc <- pc + n`. -/
def State.advance (s : State) (n : Word) : State := s.setPc (s.pc + n)

/-- `DT <- b`. -/
def State.setDt (s : State) (b : Byte) : State := { s with dt := b }

/-- `ST <- b`. -/
def State.setSt (s : State) (b : Byte) : State := { s with st := b }

/-! ## Call stack (R16) -/

/-- The free slot a push would write, unless `sp = 16`. -/
def State.pushSlot (s : State) : Option Reg := if h : s.sp.val < 16 then some ⟨s.sp.val, h⟩ else none

/-- The slot a pop would read, unless `sp = 0`. -/
def State.popSlot (s : State) : Option Reg :=
  if h : 0 < s.sp.val then some ⟨s.sp.val - 1, by omega⟩ else none

/-- `STACK[k] <- w; sp <- k + 1`. -/
def State.push (s : State) (k : Reg) (w : Word) : State :=
  { s with stack := s.stack.set k.val w, sp := k.succ }

/-- `sp <- k`; the popped entry keeps its value. UNVERIFIED: the spec's decision D30 (log entry 11). -/
def State.pop (s : State) (k : Reg) : State := { s with sp := k.castSucc }

/-! ## Framebuffer and events -/

/-- The linear index of pixel `(x, y)` (R18, R42). -/
def pixelIndex (x y : Nat) : Nat := x + 64 * y

/-- `FB[x, y]` of a frame (R42). -/
def Frame.pixel (f : Frame) (x y : Nat) : Bool := f.getLsbD (pixelIndex x y)

/-- `FB[x, y] <- FB[x, y] ^ 1`. -/
def Frame.flip (f : Frame) (x y : Nat) : Frame := f ^^^ BitVec.twoPow 2048 (pixelIndex x y)

/-- The 2048 bytes a frame is handed out as, each 0 or 1, in index order (R158). -/
def Frame.bytes (f : Frame) : List Byte := (List.range 2048).map fun k => if f.getLsbD k then 1 else 0

/-- Write the framebuffer. -/
def State.setFb (s : State) (f : Frame) : State := { s with fb := f }

/-- Append an output event (R8). -/
def State.emit (s : State) (e : Event) : State := { s with events := s.events ++ [e] }

/-- `emit FrameReady(FB)` (R124, R158): never blocks. UNVERIFIED: the spec's decision D20 (log entry 15). -/
def State.emitFrame (s : State) : State := s.emit (.frameReady s.fb)

/-! ## Faults (R148, R149) -/

/-- Latch a record, unless one is latched already: the first record stays (R149). -/
def State.latch (s : State) (f : Fault) : State := { s with fault := s.fault.or (some f) }

/-- Raise a fault: the latch takes the record, the cycle is Faulted, nothing else changes, `pc` stays at the faulting
instruction, and control goes nowhere (R148). There is no return from a fault (R149). UNVERIFIED: the spec's decision D8
(log entry 3). -/
def raiseFault (s : State) (f : Fault) : Result := .next { s.latch f with result := some .faulted }

end Sys2Proof.Machine
end

