-- ==== Sys2Proof/Machine/Cycle.lean ====
section
/-! DEFINITION. Machine/Cycle.lean: the parts of ExecuteCycle around the instruction (40_cycle.md): the fetch, the
timer tick, the halted cycle. -/

namespace Sys2Proof.Machine

/-- What a fetch answers. -/
inductive Fetched where
  | word (op : Word)
  /-- The lowest address of the fetch above 4095 (R36). -/
  | outOfBounds (addr : Nat)
  deriving DecidableEq, Repr

/-- Step 1, fetch (R71): the big-endian word at `pc`, or the lowest address out of bounds. -/
def State.fetchWord (s : State) : Fetched :=
  match badAddress s.pc.toNat 2 with
  | some a => .outOfBounds a
  | none => .word (wordOfBytes (s.readByte s.pc.toNat) (s.readByte (s.pc.toNat + 1)))

/-- `current_opcode <- op` (R71), and the cycle counts as Normal until its instruction says otherwise (R70). -/
def State.beginCycle (s : State) (op : Word) : State :=
  { s with currentOpcode := op, result := some .normal }

/-- One timer's part of the tick: down by one unless it is zero (R73). -/
def countDown (b : Byte) : Byte := if b = 0 then 0 else b - 1

/-- The event of the tick: Beep when `ST` is exactly 1 before the decrement (R73, R155). UNVERIFIED: the
spec's decision D28 (log entry 17). -/
def beepOf (st : Byte) : List Event := if st = 1 then [.beep] else []

/-- Step 3, `Tick()` (R73). -/
def State.tick (s : State) : State :=
  { s with dt := countDown s.dt, st := countDown s.st, events := s.events ++ beepOf s.st }

/-- After the instruction: the tick runs in a Normal cycle, in a Blocked cycle only under `KEYWAIT_BLOCKED_TICK`, and
never in a Faulted cycle (R73). UNVERIFIED: the spec's open parameter D11 and decision D8 (log entries 6 and 3). -/
def State.finishCycle (s : State) : State :=
  match s.result with
  | some .normal => s.tick
  | some .blocked => if s.params.keywaitBlockedTick then s.tick else s
  | _ => s

/-- The cycle of a halted machine: no fetch, no tick, no event; the result is Faulted (R78, R148). -/
def haltedCycle (s : State) : Result := .next { s with result := some .faulted }

/-- A state in which the next cycle fetches the word `op`: not halted, `pc` where a word can be fetched (at 512 if it
is not), and the word's bytes there, high byte first (R32). DESIGN CHOICE (log entry 9). -/
def State.placeWord (s : State) (op : Word) : State :=
  let at_ : Word := if s.pc.toNat ≤ 4094 then s.pc else 512
  { s with pc := at_, fault := none, mem := Memory.store s.params.font s.mem at_.toNat (bytesOfWord op) }

end Sys2Proof.Machine
end

