-- ==== Sys2Proof/Machine/Flags.lean ====
section
/-! DEFINITION. Machine/Flags.lean: the seven values an instruction writes to `VF` as a flag (10_state.md R12), each
the byte 0 or 1. -/

namespace Sys2Proof.Machine

/-- A flag as the byte stored in `VF` (R12). -/
def flagByte (c : Bool) : Byte := if c then 1 else 0

/-- 8XY4: 1 if `y > 255 − x` (R96). -/
def carryFlag (x y : Byte) : Byte := flagByte (decide (y.toNat > 255 - x.toNat))

/-- 8XY5: "not borrow" of `x − y`, 0 if `y > x` (R97). -/
def notBorrowFlag (x y : Byte) : Byte := flagByte (!decide (y.toNat > x.toNat))

/-- 8XY7: "not borrow" of `y − x`, 0 if `x > y` (R99). -/
def notBorrowRevFlag (x y : Byte) : Byte := flagByte (!decide (x.toNat > y.toNat))

/-- 8XY6: the bit shifted out, `x & 1` (R98). -/
def lowBitFlag (x : Byte) : Byte := x &&& 1

/-- 8XYE: the bit shifted out, `x >> 7` (R100). -/
def highBitFlag (x : Byte) : Byte := x >>> 7

/-- FX1E: 1 if the new 16-bit `I` exceeds 0xFFF (R111). UNVERIFIED: the spec's decision D15 (log entry 7). -/
def indexFlag (i : Word) : Byte := flagByte (decide (i.toNat > 0x0FFF))

/-- DXYN: 1 if some lit sprite bit falls on a set pixel (R121, D18). -/
def collisionFlag (f : Frame) (lit : List (Nat × Nat)) : Byte :=
  flagByte (lit.any fun p => Frame.pixel f p.1 p.2)

end Sys2Proof.Machine
end

