-- ==== Sys2Proof/Machine/Operands.lean ====
section
/-! DEFINITION. Machine/Operands.lean: every operand form of the spec: zero-extended literals and registers
(30_encoding.md R52), the one addressing mode (43_index_memory.md R116), the register range of FX55 and FX65, the
key operands, and the sprite operand of DXYN (44_display.md R122). -/

namespace Sys2Proof.Machine

/-- `zext_16` of a byte (R8, R52). -/
def zextByte (b : Byte) : Word := b.setWidth 16

/-- `zext_16` of `NNN` (R52). -/
def zextAddr (nnn : Addr12) : Word := nnn.setWidth 16

/-- The effective address of the first byte of an access through `I` (R116). -/
def State.baseAddress (s : State) : Nat := s.index.toNat

/-- The bytes of `V[0..X]`, inclusive of `V[X]` (R114, D27). -/
def State.regBytes (s : State) (x : Reg) : List Byte := s.v.toList.take (x.val + 1)

/-- The register file after `V[k] <- MemRead(base + k, 1)` for `k` in `0..X` (R115). -/
def State.loadedRegs (s : State) (base : Nat) (x : Reg) : Vector Byte 16 :=
  Vector.ofFn fun k => if k.val ≤ x.val then s.readByte (base + k.val) else s.v[k.val]

/-- The three decimal digits of a byte, hundreds first (R113). -/
def bcdDigits (b : Byte) : List Byte :=
  [BitVec.ofNat 8 (b.toNat / 100), BitVec.ofNat 8 (b.toNat / 10 % 10), BitVec.ofNat 8 (b.toNat % 10)]

/-- The key a byte names, if it is at most 15: it is not masked (R130). UNVERIFIED: the spec's decision D19 (log entry
3). -/
def keyOf (b : Byte) : Option Reg := if h : b.toNat < 16 then some ⟨b.toNat, h⟩ else none

/-- `KEY[k]` (R19). -/
def State.key (s : State) (k : Reg) : Bool := s.keys[k.val]

/-- The largest `k` with `KEY[k]`, if a key is pressed (R133). UNVERIFIED: the spec's decision D10 (log entry
4). -/
def State.highestKey (s : State) : Option Reg := (List.finRange 16).reverse.find? fun k => s.key k

/-- Whether the sprite bit at column offset `c` of a row byte is 1: bit 7 is the leftmost (R122, D16).
PRESUMED (log entry 4). -/
def spriteBit (row : Byte) (c : Nat) : Bool := row.getLsbD (7 - c)

/-- The screen positions of one row's lit bits, ascending column, computed without wrap-around (R123). -/
def litRow (x0 y : Nat) (row : Byte) : List (Nat × Nat) :=
  ((List.range 8).filter fun c => spriteBit row c).map fun c => (x0 + c, y)

/-- The screen positions of the lit bits of the `n`-row sprite at `I`, in row-major order (R122, R123). -/
def State.litPixels (s : State) (x0 y0 n : Nat) : List (Nat × Nat) :=
  (List.range n).flatMap fun r => litRow x0 (y0 + r) (s.readByte (s.baseAddress + r))

/-- A position outside the 64 by 32 grid (R123). UNVERIFIED: the spec's decision D17 (log entry 3). -/
def offGrid (p : Nat × Nat) : Bool := decide (63 < p.1) || decide (31 < p.2)

/-- The framebuffer with every lit position toggled (R121). -/
def Frame.drawn (f : Frame) (lit : List (Nat × Nat)) : Frame := lit.foldl (fun g p => Frame.flip g p.1 p.2) f

/-- The pc delta of FX29 (R112). UNVERIFIED: the spec's open parameter D9 (log entry 5). -/
def fx29Delta (d : Fx29PcDelta) : Word :=
  match d with
  | .zero => 0
  | .two => 2

end Sys2Proof.Machine
end

