-- ==== Sys2Proof/Machine/Alu.lean ====
section
/-! DEFINITION. Machine/Alu.lean: 6XNN, 7XNN, 8XY0 to 8XY7, 8XYE, CXNN (42_alu.md). -/

namespace Sys2Proof.Machine

/-- `V[x] <- b; pc <- pc + 2`: the instructions that write one register and no flag (R103). -/
def writeReg (x : Reg) (b : Byte) (s : State) : Result := .next ((s.setV x b).advance 2)

/-- The two assignments of R102 in sequence: the flag of the old `V[x]`, `V[y]` goes to `VF`, then `V[x]` takes the
result of `V[x]`, `V[y]` read again from the register file. UNVERIFIED: the spec's decision D13 (log entry 4). -/
def flagThenResult (x y : Reg) (flag : Byte) (op : Byte → Byte → Byte) (s : State) : Result :=
  let s1 := s.setV vf flag
  .next ((s1.setV x (op (s1.getV x) (s1.getV y))).advance 2)

/-- 6XNN (R90). -/
def execLdImm (x : Reg) (nn : Byte) (s : State) : Result := writeReg x nn s

/-- 7XNN (R91). -/
def execAddImm (x : Reg) (nn : Byte) (s : State) : Result := writeReg x (s.getV x + nn) s

/-- 8XY0 (R92). -/
def execLdReg (x y : Reg) (s : State) : Result := writeReg x (s.getV y) s

/-- 8XY1 (R93). -/
def execOrReg (x y : Reg) (s : State) : Result := writeReg x (s.getV x ||| s.getV y) s

/-- 8XY2 (R94). -/
def execAndReg (x y : Reg) (s : State) : Result := writeReg x (s.getV x &&& s.getV y) s

/-- 8XY3 (R95). -/
def execXorReg (x y : Reg) (s : State) : Result := writeReg x (s.getV x ^^^ s.getV y) s

/-- 8XY4 (R96). -/
def execAddReg (x y : Reg) (s : State) : Result :=
  flagThenResult x y (carryFlag (s.getV x) (s.getV y)) (fun a b => a + b) s

/-- 8XY5 (R97). -/
def execSubReg (x y : Reg) (s : State) : Result :=
  flagThenResult x y (notBorrowFlag (s.getV x) (s.getV y)) (fun a b => a - b) s

/-- 8XY6 (R98): `Y` is ignored (R58, D14). -/
def execShr (x y : Reg) (s : State) : Result :=
  flagThenResult x y (lowBitFlag (s.getV x)) (fun a _ => a >>> 1) s

/-- 8XY7 (R99). -/
def execSubnReg (x y : Reg) (s : State) : Result :=
  flagThenResult x y (notBorrowRevFlag (s.getV x) (s.getV y)) (fun a b => b - a) s

/-- 8XYE (R100): `Y` is ignored (R58, D14). -/
def execShl (x y : Reg) (s : State) : Result :=
  flagThenResult x y (highBitFlag (s.getV x)) (fun a _ => a <<< 1) s

/-- CXNN (R104): the byte drawn is the free value `Config.rnd`, a fresh one for each execution. -/
def execRnd (x : Reg) (nn : Byte) (s : State) : Result :=
  writeReg x (Config.rnd s.draws &&& nn) { s with draws := s.draws + 1 }

end Sys2Proof.Machine
end

