-- ==== Sys2Proof/Machine/ControlFlow.lean ====
section
/-! DEFINITION. Machine/ControlFlow.lean: 00EE, 1NNN, 2NNN, 3XNN, 4XNN, 5XY0, 9XY0, BNNN (41_control_flow.md). -/

namespace Sys2Proof.Machine

/-- `pc + 4` if the condition holds, else `pc + 2` (R76). -/
def skipIf (c : Bool) (s : State) : Result := .next (s.advance (if c then 4 else 2))

/-- 00EE (R80). -/
def execRet (s : State) : Result :=
  match s.popSlot with
  | none => raiseFault s (.stackUnderflow s.pc)
  | some k => .next ((s.pop k).setPc (s.stack[k.val] + 2))

/-- 1NNN (R81). -/
def execJp (nnn : Addr12) (s : State) : Result := .next (s.setPc (zextAddr nnn))

/-- 2NNN (R82): the address pushed is that of the 2NNN itself. -/
def execCall (nnn : Addr12) (s : State) : Result :=
  match s.pushSlot with
  | none => raiseFault s (.stackOverflow s.pc)
  | some k => .next ((s.push k s.pc).setPc (zextAddr nnn))

/-- 3XNN (R83). -/
def execSeImm (x : Reg) (nn : Byte) (s : State) : Result := skipIf (s.getV x == nn) s

/-- 4XNN (R84). -/
def execSneImm (x : Reg) (nn : Byte) (s : State) : Result := skipIf (s.getV x != nn) s

/-- 5XY0 (R85). -/
def execSeReg (x y : Reg) (s : State) : Result := skipIf (s.getV x == s.getV y) s

/-- 9XY0 (R86). -/
def execSneReg (x y : Reg) (s : State) : Result := skipIf (s.getV x != s.getV y) s

/-- BNNN (R87): the offset is always `V[0]`; the sum is not reduced to 12 bits. -/
def execJpV0 (nnn : Addr12) (s : State) : Result := .next (s.setPc (zextAddr nnn + zextByte (s.getV 0)))

end Sys2Proof.Machine
end

