-- ==== Sys2Proof/Machine/Display.lean ====
section
/-! DEFINITION. Machine/Display.lean: 00E0 and DXYN (44_display.md). -/

namespace Sys2Proof.Machine

/-- 00E0 (R120): `VF` is not written; the event is emitted every time. -/
def execCls (s : State) : Result := .next ((s.setFb 0).emitFrame.advance 2)

/-- DXYN (R121): the coordinates are read before `VF` is written; the memory check comes first, then the edge check
(R123, R150); then `VF` takes the collision flag, every lit pixel toggles, and the frame is emitted. -/
def execDrw (x y : Reg) (n : Fin 16) (s : State) : Result :=
  match badAddress s.baseAddress n.val with
  | some a => raiseFault s (.memoryOutOfBounds a)
  | none =>
    let lit := s.litPixels (s.getV x).toNat (s.getV y).toNat n.val
    match lit.find? offGrid with
    | some p => raiseFault s (.displayOutOfBounds p.1 p.2)
    | none => .next ((((s.setV vf (collisionFlag s.fb lit)).setFb (Frame.drawn s.fb lit)).emitFrame).advance 2)

end Sys2Proof.Machine
end

