-- ==== Sys2Proof/Machine/IndexMemory.lean ====
section
/-! DEFINITION. Machine/IndexMemory.lean: ANNN, FX1E, FX29, FX33, FX55, FX65 (43_index_memory.md). -/

namespace Sys2Proof.Machine

/-- Check the `n` bytes from `I` before anything is written (R36, R116), then go on. -/
def checkIndexed (n : Nat) (s : State) (go : State → State) : Result :=
  match badAddress s.baseAddress n with
  | some a => raiseFault s (.memoryOutOfBounds a)
  | none => .next (go s)

/-- `I <- (I + X + 1) mod 65536`: the post-increment of FX55 and FX65 (R116). -/
def State.bumpIndex (s : State) (x : Reg) : State := s.setIndex (s.index + BitVec.ofNat 16 (x.val + 1))

/-- ANNN (R110). -/
def execLdIndex (nnn : Addr12) (s : State) : Result := .next ((s.setIndex (zextAddr nnn)).advance 2)

/-- FX1E (R111): `I` is updated first, from the old `V[X]`; then `VF` takes the flag of the new 16-bit `I`. -/
def execAddIndex (x : Reg) (s : State) : Result :=
  let s1 := s.setIndex (s.index + zextByte (s.getV x))
  .next ((s1.setV vf (indexFlag s1.index)).advance 2)

/-- FX29 (R112): `V[X]` is not masked to a nibble. -/
def execLdFont (x : Reg) (s : State) : Result :=
  .next ((s.setIndex (zextByte (s.getV x) * 5)).advance (fx29Delta s.params.fx29PcDelta))

/-- FX33 (R113). -/
def execLdBcd (x : Reg) (s : State) : Result :=
  checkIndexed 3 s fun s => (s.storeBytes s.baseAddress (bcdDigits (s.getV x))).advance 2

/-- FX55 (R114). -/
def execStoreRegs (x : Reg) (s : State) : Result :=
  checkIndexed (x.val + 1) s fun s => ((s.storeBytes s.baseAddress (s.regBytes x)).bumpIndex x).advance 2

/-- FX65 (R115). -/
def execLoadRegs (x : Reg) (s : State) : Result :=
  checkIndexed (x.val + 1) s fun s => (State.bumpIndex { s with v := s.loadedRegs s.baseAddress x } x).advance 2

end Sys2Proof.Machine
end

