-- ==== Sys2Proof/Machine/KeypadTimers.lean ====
section
/-! DEFINITION. Machine/KeypadTimers.lean: EX9E, EXA1, FX07, FX0A, FX15, FX18 (45_keypad_timers.md). -/

namespace Sys2Proof.Machine

/-- A skip on the state of the key `V[X]` names, skipping when the key is at `level`. -/
def skipIfKey (x : Reg) (level : Bool) (s : State) : Result :=
  match keyOf (s.getV x) with
  | none => raiseFault s (.keyIndexOutOfRange (s.getV x))
  | some k => skipIf (s.key k == level) s

/-- EX9E (R130). -/
def execSkp (x : Reg) (s : State) : Result := skipIfKey x true s

/-- EXA1 (R131). -/
def execSknp (x : Reg) (s : State) : Result := skipIfKey x false s

/-- FX07 (R132): `DT` as it is before this cycle's tick. -/
def execLdVxDt (x : Reg) (s : State) : Result := writeReg x s.dt s

/-- FX0A (R133): the highest pressed key; with none pressed the cycle is Blocked and nothing is written. -/
def execLdKey (x : Reg) (s : State) : Result :=
  match s.highestKey with
  | some k => writeReg x (BitVec.ofNat 8 k.val) s
  | none => .next { s with result := some .blocked }

/-- FX15 (R134). -/
def execLdDtVx (x : Reg) (s : State) : Result := .next ((s.setDt (s.getV x)).advance 2)

/-- FX18 (R135). -/
def execLdStVx (x : Reg) (s : State) : Result := .next ((s.setSt (s.getV x)).advance 2)

end Sys2Proof.Machine
end

