-- ==== Sys2Proof/Machine/Step.lean ====
section
/-! DEFINITION. Machine/Step.lean: one ExecuteCycle (40_cycle.md R79). -/

namespace Sys2Proof.Machine

/-- ExecuteCycle: halted, or fetch, decode, execute, tick, in this order (R79). Faults have the priority of R150. -/
def step (s : State) : Host.Outcome State Fault Refusal :=
  match s.fault with
  | some _ => haltedCycle s
  | none =>
    match s.fetchWord with
    | .outOfBounds a => raiseFault s (.memoryOutOfBounds a)
    | .word op =>
      match decode op with
      | .error _ => raiseFault (s.beginCycle op) (.unknownOpcode op s.pc)
      | .ok i =>
        match exec i (s.beginCycle op) with
        | .next t => .next t.finishCycle
        | .fault f => .fault f
        | .refused r => .refused r

/-- `s` with the instruction whose bits are `w` placed where `step` fetches its next instruction. -/
def State.withFetchWord (s : State) (nbits w : Nat) : State := s.placeWord (tableWord nbits w)

end Sys2Proof.Machine
end

