-- ==== Sys2Proof/Machine/HostOps.lean ====
section
/-! DEFINITION. Machine/HostOps.lean: the four things the host can do to the machine, between cycles only
(60_exceptions.md R157). -/

namespace Sys2Proof.Machine

/-- Construct (R24, R170): every element of the spec's state takes its reset value, whatever it held. The parameters
stay, and so do the model's own records of the events emitted and the bytes drawn, which are not machine state. DESIGN CHOICE
(log entries 2 and 10). -/
def State.construct (s : State) : State :=
  { State.resetWith s.params with draws := s.draws, events := s.events }

/-- Whether LoadProgram accepts an image (R41). -/
def loadFits (bytes : List Byte) : Bool := decide (bytes.length ≤ 3584)

/-- LoadProgram (R41, R160): the image goes to 512 and up and nothing else changes; an image that is too long changes
no memory and latches LoadError, unless a fault is latched already (R142, R149). -/
def State.loadProgram (s : State) (bytes : List Byte) : State :=
  if loadFits bytes then s.storeBytes 512 bytes else s.latch (.loadError .capacityExceeded bytes.length)

/-- What LoadProgram gives the host back: nothing, or the LoadError (R157). -/
def loadReport (bytes : List Byte) : Option Fault :=
  if loadFits bytes then none else some (.loadError .capacityExceeded bytes.length)

/-- SetKey (R161): an index outside 0 to 15 cannot be written (D29). -/
def State.setKey (s : State) (k : Reg) (pressed : Bool) : State := { s with keys := s.keys.set k.val pressed }

/-- The host's operations (R157). UNVERIFIED: the spec's decision D1 (log entry 16). -/
inductive HostMove where
  | construct
  | loadProgram (bytes : List Byte)
  | setKey (k : Reg) (pressed : Bool)
  | executeCycle
  deriving DecidableEq, Repr

/-- What one operation of the host does. -/
def applyMove (m : HostMove) (s : State) : Result :=
  match m with
  | .construct => .next s.construct
  | .loadProgram bytes => .next (s.loadProgram bytes)
  | .setKey k pressed => .next (s.setKey k pressed)
  | .executeCycle => step s

end Sys2Proof.Machine
end

