-- ==== Sys2Proof/Safety.lean ====
section
/-! DEFINITION. Safety.lean: the terms statements use: a fault-free state, what two states share, the invariant of the
machine, and four of the spec's tables (program counter movement, register writers, state writers, stored bytes)
written from its prose and not from the meanings. -/

namespace Sys2Proof.Machine

/-- No fault is latched: the machine is not halted (R148). A claim about a program takes this as a premise of each
state it passes through. -/
def State.faultFree (s : State) : Prop := s.fault = none

/-- The pieces of state other than the V registers. `stack` is the sixteen entries, `sp` the stack pointer. -/
inductive Part where
  | memory | index | pc | sp | stack | delayTimer | soundTimer | display | keypad | opcode | fault
  | params | draws | events | result
  deriving DecidableEq, Repr

/-- Two states agree on a piece of state. Memory is compared byte by byte, at every address. -/
def Part.same (p : Part) (s t : State) : Prop :=
  match p with
  | .memory => ∀ a, t.readByte a = s.readByte a
  | .index => t.index = s.index
  | .pc => t.pc = s.pc
  | .sp => t.sp = s.sp
  | .stack => ∀ k : Reg, t.stack[k.val] = s.stack[k.val]
  | .delayTimer => t.dt = s.dt
  | .soundTimer => t.st = s.st
  | .display => t.fb = s.fb
  | .keypad => t.keys = s.keys
  | .opcode => t.currentOpcode = s.currentOpcode
  | .fault => t.fault = s.fault
  | .params => t.params = s.params
  | .draws => t.draws = s.draws
  | .events => t.events = s.events
  | .result => t.result = s.result

/-- From `s` to `t` nothing changes but the registers and pieces of state named. -/
def changesOnly (regs : List Reg) (parts : List Part) (s t : State) : Prop :=
  (∀ r, r ∉ regs → t.getV r = s.getV r) ∧ ∀ p, p ∉ parts → p.same s t

/-- From `s` to `t` the fault `f` was raised: it is latched if no fault was, the cycle is Faulted, and nothing else
changes, `pc` included (R148). -/
def raised (f : Fault) (s t : State) : Prop :=
  (s.fault = none → t.fault = some f) ∧ t.result = some .faulted ∧ changesOnly [] [.fault, .result] s t

/-- The invariant of the machine: memory is canonical, `pc` is at most 0x10FE (R15), every stack entry is at most 4094
(R15: 0 or a `pc` a word was fetched from), and a Faulted cycle left a fault latched (R148). -/
def State.Inv (s : State) : Prop :=
  Memory.wf s.params.font s.mem = true ∧ s.pc.toNat ≤ 0x10FE ∧ (∀ k : Reg, s.stack[k.val].toNat ≤ 4094) ∧
    (s.result = some .faulted → s.fault ≠ none)

/-- `pc + 4` or `pc + 2` (R76). -/
def skipTo (c : Prop) [Decidable c] (pc : Word) : Word := if c then pc + 4 else pc + 2

/-- Whether some key is pressed (R133). -/
def State.anyKey (s : State) : Bool := s.keys.toList.any id

/-- The table of R76: the program counter after each instruction that does not fault. -/
def pcAfter (i : Instr) (s : State) : Word :=
  match i with
  | .ret => s.stack[s.sp.val - 1]?.getD 0 + 2
  | .jp nnn => nnn.setWidth 16
  | .call nnn => nnn.setWidth 16
  | .seImm x nn => skipTo (s.getV x = nn) s.pc
  | .sneImm x nn => skipTo (s.getV x ≠ nn) s.pc
  | .seReg x y => skipTo (s.getV x = s.getV y) s.pc
  | .sneReg x y => skipTo (s.getV x ≠ s.getV y) s.pc
  | .skp x => skipTo (s.keys[(s.getV x).toNat]? = some true) s.pc
  | .sknp x => skipTo (s.keys[(s.getV x).toNat]? = some false) s.pc
  | .jpV0 nnn => nnn.setWidth 16 + (s.getV 0).setWidth 16
  | .ldKey _ => if s.anyKey then s.pc + 2 else s.pc
  | .ldFont _ => match s.params.fx29PcDelta with
    | .zero => s.pc
    | .two => s.pc + 2
  | .cls | .ldImm _ _ | .addImm _ _ | .ldReg _ _ | .orReg _ _ | .andReg _ _ | .xorReg _ _ | .addReg _ _
  | .subReg _ _ | .shr _ _ | .subnReg _ _ | .shl _ _ | .ldIndex _ | .rnd _ _ | .drw _ _ _ | .ldVxDt _ | .ldDtVx _
  | .ldStVx _ | .addIndex _ | .ldBcd _ | .storeRegs _ | .loadRegs _ => s.pc + 2

/-- The writers of the registers (R11, R12): `V[X]` by 6XNN, 7XNN, 8XY0 to 8XY7, 8XYE, CXNN, FX07, FX0A; `V[0]..V[X]`
by FX65; `VF` as a flag by 8XY4, 8XY5, 8XY6, 8XY7, 8XYE, DXYN, FX1E. -/
def registerWriters (i : Instr) : List Reg :=
  match i with
  | .ldImm x _ | .addImm x _ | .ldReg x _ | .orReg x _ | .andReg x _ | .xorReg x _ | .rnd x _ | .ldVxDt x
  | .ldKey x => [x]
  | .addReg x _ | .subReg x _ | .shr x _ | .subnReg x _ | .shl x _ => [x, 15]
  | .drw _ _ _ | .addIndex _ => [15]
  | .loadRegs x => (List.finRange 16).filter fun r => r ≤ x
  | .cls | .ret | .jp _ | .call _ | .seImm _ _ | .sneImm _ _ | .seReg _ _ | .sneReg _ _ | .ldIndex _ | .jpV0 _
  | .skp _ | .sknp _ | .ldDtVx _ | .ldStVx _ | .ldFont _ | .ldBcd _ | .storeRegs _ => []

/-- The writers of the rest of the state (R18, R19, R22, R35, R140): which pieces an instruction may write. `pc` is
every instruction's; the fault latch is written where R140 names the instruction. -/
def partWriters (i : Instr) : List Part :=
  match i with
  | .cls => [.pc, .display, .events]
  | .drw _ _ _ => [.pc, .display, .events, .fault, .result]
  | .ret => [.pc, .sp, .fault, .result]
  | .call _ => [.pc, .sp, .stack, .fault, .result]
  | .ldIndex _ | .addIndex _ | .ldFont _ => [.pc, .index]
  | .ldBcd _ => [.pc, .memory, .fault, .result]
  | .storeRegs _ => [.pc, .memory, .index, .fault, .result]
  | .loadRegs _ => [.pc, .index, .fault, .result]
  | .skp _ | .sknp _ => [.pc, .fault, .result]
  | .ldKey _ => [.pc, .result]
  | .ldDtVx _ => [.pc, .delayTimer]
  | .ldStVx _ => [.pc, .soundTimer]
  | .rnd _ _ => [.pc, .draws]
  | .jp _ | .seImm _ _ | .sneImm _ _ | .seReg _ _ | .sneReg _ _ | .jpV0 _ | .ldImm _ _ | .addImm _ _ | .ldReg _ _
  | .orReg _ _ | .andReg _ _ | .xorReg _ _ | .addReg _ _ | .subReg _ _ | .shr _ _ | .subnReg _ _ | .shl _ _
  | .ldVxDt _ => [.pc]

/-- The rows of R35 that write memory: how many bytes, from `I` up, an instruction may store to. -/
def storeWidth (i : Instr) : Nat :=
  match i with
  | .ldBcd _ => 3
  | .storeRegs x => x.val + 1
  | .cls | .ret | .jp _ | .call _ | .seImm _ _ | .sneImm _ _ | .seReg _ _ | .sneReg _ _ | .ldIndex _ | .jpV0 _
  | .skp _ | .sknp _ | .ldDtVx _ | .ldStVx _ | .ldFont _ | .ldImm _ _ | .addImm _ _ | .ldReg _ _ | .orReg _ _
  | .andReg _ _ | .xorReg _ _ | .addReg _ _ | .subReg _ _ | .shr _ _ | .subnReg _ _ | .shl _ _ | .rnd _ _
  | .drw _ _ _ | .ldVxDt _ | .ldKey _ | .addIndex _ | .loadRegs _ => 0

/-- The sprite of DXYN has a lit bit at row `r`, column offset `c` (R122). -/
def spriteLit (s : State) (n : Fin 16) (r c : Nat) : Prop :=
  r < n.val ∧ c < 8 ∧ (s.readByte (s.index.toNat + r)).getLsbD (7 - c) = true

/-- A lit bit of the sprite drawn at `(V[X], V[Y])` falls on the screen position `(px, py)` (R122). -/
def spriteCovers (s : State) (x y : Reg) (n : Fin 16) (px py : Nat) : Prop :=
  ∃ r c, spriteLit s n r c ∧ px = (s.getV x).toNat + c ∧ py = (s.getV y).toNat + r

/-- Every sprite byte lies in memory (R36); no sprite byte is read when `N = 0`. -/
def spriteInMemory (s : State) (n : Fin 16) : Prop := n.val = 0 ∨ s.index.toNat + n.val ≤ 4096

/-- Every lit bit of the sprite falls inside the grid (R123). -/
def spriteOnGrid (s : State) (x y : Reg) (n : Fin 16) : Prop :=
  ∀ px py, spriteCovers s x y n px py → px ≤ 63 ∧ py ≤ 31

/-- The pixel loop of R121 as its pseudocode writes it: one pass in row-major order that updates `VF` and the pixel
together. -/
def drawLoop : Frame → Byte → List (Nat × Nat) → Frame × Byte
  | f, flag, [] => (f, flag)
  | f, flag, (px, py) :: rest =>
    drawLoop (Frame.flip f px py) (if Frame.pixel f px py then 1 else flag) rest

end Sys2Proof.Machine
end

