-- ==== Sys2Proof/Certificates/Slice0/Obligations.lean ====
section
/-! DEFINITION. Certificates/Slice0/Obligations.lean: the statements for the provers, from the numbered rules of
spec/. Encodings are written as numbers (0x6000 + 256*X + NN); every instruction's statement says its encoding, the
condition under which it completes, the next state, and its frame by `changesOnly`. -/

open Sys2Proof Sys2Proof.Machine

/-! ## Encoding (30_encoding.md) -/

/-- A sanity statement: words the spec spells out in its examples decode as it says (R120, R82, R59, R83, R98, R121,
R131, R115, in this order), and its example of an unknown word is unknown (R141). -/
def Obligations.SpecWordsDecode : Prop :=
  decode 0x00E0 = .ok .cls ∧ decode 0x2210 = .ok (.call 0x210) ∧ decode 0x6A2F = .ok (.ldImm 10 0x2F) ∧
    decode 0x3100 = .ok (.seImm 1 0) ∧ decode 0x84A6 = .ok (.shr 4 10) ∧ decode 0xD011 = .ok (.drw 0 1 1) ∧
    decode 0xE5A1 = .ok (.sknp 5) ∧ decode 0xF265 = .ok (.loadRegs 2) ∧
    decode 0x0001 = .error (.unknownOpcode 0x0001)

/-- Decoding the word of any instruction gives the instruction back: no bit of an operand is dropped (R51 to R53). -/
def Obligations.DecodeEncode : Prop := ∀ i : Instr, decode (encode i) = .ok i

/-- A word that decodes is the word of the instruction it decodes to: no two words give one instruction (R54). -/
def Obligations.EncodeDecode : Prop := ∀ (op : Word) (i : Instr), decode op = .ok i → encode i = op

/-- No word matches two rows of the opcode map: "at most one row matches any word (the rows are disjoint)" (R54). -/
def Obligations.RowsDisjoint : Prop :=
  rows.Pairwise fun r1 r2 => ∀ op : Word, ¬ (op &&& r1.mask = r1.pattern ∧ op &&& r2.mask = r2.pattern)

/-- A word decodes exactly when it is not in the list of unknown encodings of R56 (which the spec marks as derived). -/
def Obligations.UnknownWords : Prop := ∀ op : Word, (∃ i, decode op = .ok i) ↔ knownWord op = true

/-! ## The cycle (40_cycle.md) -/

/-- The fetch is big-endian (R32, R71) and needs no alignment. That an odd `pc` fetches like any other is R34, which the
spec marks as derived and as its decision D5 (log entry 14, unsafe). -/
def Obligations.FetchBigEndian : Prop :=
  ∀ s : State, s.pc.toNat ≤ 4094 →
    ∃ op, s.fetchWord = .word op ∧
      op.toNat = 256 * (s.readByte s.pc.toNat).toNat + (s.readByte (s.pc.toNat + 1)).toNat

/-- A step runs the decoded instruction: when the bytes at `pc` spell the instruction `i`, the step is exec of `i` at
the state with `current_opcode` and the cycle's result recorded, then `finishCycle` (R71, R72). `TickMeaning` says
what `finishCycle` does. -/
def Obligations.StepRunsDecoded : Prop :=
  ∀ (s : State) (op : Word) (i : Instr), s.fault = none → s.pc.toNat ≤ 4094 →
    op.toNat = 256 * (s.readByte s.pc.toNat).toNat + (s.readByte (s.pc.toNat + 1)).toNat → decode op = .ok i →
      ∃ t, exec i { s with currentOpcode := op, result := some .normal } = .next t ∧ step s = .next t.finishCycle

/-- The end of a cycle: both timers go down by one and never below zero, Beep is emitted exactly when `ST` was 1, in
a Normal cycle, in a Blocked cycle only under KEYWAIT_BLOCKED_TICK, and never in a Faulted one. The Faulted case is the
spec's decision D8, the Blocked case its open parameter D11 (log entries 3 and 6). -/
def Obligations.TickMeaning : Prop :=
  ∀ s : State,
    ((s.result = some .normal ∨ (s.result = some .blocked ∧ s.params.keywaitBlockedTick = true)) →
      s.finishCycle.dt.toNat = s.dt.toNat - 1 ∧ s.finishCycle.st.toNat = s.st.toNat - 1 ∧
      s.finishCycle.events = s.events ++ (if s.st.toNat = 1 then [.beep] else []) ∧
      changesOnly [] [.delayTimer, .soundTimer, .events] s s.finishCycle) ∧
    ((s.result = some .faulted ∨ (s.result = some .blocked ∧ s.params.keywaitBlockedTick = false)) →
      s.finishCycle = s)

/-- A fetch beyond the end of memory faults with the lowest address out of range, and `current_opcode` keeps its value
(R71, R145, R148; the spec's decision D4, log entry 3). -/
def Obligations.FetchOutOfBounds : Prop :=
  ∀ s : State, s.fault = none → 4094 < s.pc.toNat →
    ∃ t, step s = .next t ∧ t.fault = some (.memoryOutOfBounds (max s.pc.toNat 4096)) ∧ t.result = some .faulted ∧
      changesOnly [] [.fault, .result] s t

/-- An unknown word faults, is reported with its value and its address, and corrupts no state (R141). -/
def Obligations.UnknownOpcodeFaults : Prop :=
  ∀ (s : State) (op : Word), s.fault = none → s.fetchWord = .word op → knownWord op = false →
    ∃ t, step s = .next t ∧ t.fault = some (.unknownOpcode op s.pc) ∧ t.currentOpcode = op ∧
      t.result = some .faulted ∧ changesOnly [] [.fault, .result, .opcode] s t

/-- A halted machine's cycle does nothing and is Faulted with the same record (R78; the spec's decision D8). -/
def Obligations.HaltedCycle : Prop :=
  ∀ (s : State) (f : Fault), s.fault = some f →
    ∃ t, step s = .next t ∧ t.fault = some f ∧ t.result = some .faulted ∧ changesOnly [] [.result] s t

/-- Faults are precise: a cycle that latches a fault changes nothing else but `current_opcode` (R148; D8). -/
def Obligations.FaultsPrecise : Prop :=
  ∀ s t : State, s.fault = none → step s = .next t → t.fault ≠ none →
    t.result = some .faulted ∧ changesOnly [] [.fault, .result, .opcode] s t

/-- Every cycle completes: from any state whatever, the step answers a next state whose result is Normal, Blocked or
Faulted, and Faulted exactly when a fault is latched (R70). The latch is the spec's decision D8 (log entry 3). -/
def Obligations.EveryStepCompletes : Prop :=
  ∀ s : State, ∃ t, step s = .next t ∧
    (t.result = some .normal ∨ t.result = some .blocked ∨ t.result = some .faulted) ∧
    (t.result = some .faulted ↔ t.fault ≠ none)

/-- The program counter moves as the table of R76 says, for every instruction that does not fault. The row of FX29 is the
spec's open parameter D9 (log entry 5), for both its values; arithmetic modulo 65536 is its decision D26 (log entry 14). -/
def Obligations.PcMoves : Prop :=
  ∀ (i : Instr) (s t : State), s.fault = none → exec i s = .next t → t.fault = none → t.pc = pcAfter i s

/-- A cycle emits at most one FrameReady followed by at most one Beep (R70, R74). -/
def Obligations.EventsOfACycle : Prop :=
  ∀ s t : State, step s = .next t →
    ∃ frames beeps : List Event, t.events = s.events ++ frames ++ beeps ∧
      (frames = [] ∨ frames = [.frameReady t.fb]) ∧ (beeps = [] ∨ beeps = [.beep])

/-- FrameReady is emitted once by each 00E0 and each DXYN that does not fault, with the framebuffer as they leave it,
and no instruction emits anything else (R124, R158). -/
def Obligations.FrameEvents : Prop :=
  ∀ (i : Instr) (s t : State), s.fault = none → exec i s = .next t →
    t.events = s.events ++
      (match i with
       | .cls => [.frameReady t.fb]
       | .drw _ _ _ => if t.fault = none then [.frameReady t.fb] else []
       | _ => [])

/-- A Normal cycle ticks the delay timer exactly once, whatever the instruction, except that FX15 sets it first; a
Faulted cycle does not tick it (R73, R154; the spec's decision D8). -/
def Obligations.DelayTimerDecays : Prop :=
  ∀ (s t : State) (op : Word), s.fault = none → s.fetchWord = .word op → step s = .next t →
    (t.result = some .normal → (∀ x, decode op ≠ .ok (.ldDtVx x)) → t.dt.toNat = s.dt.toNat - 1) ∧
    (t.result = some .normal → ∀ x, decode op = .ok (.ldDtVx x) → t.dt.toNat = (s.getV x).toNat - 1) ∧
    (t.result = some .faulted → t.dt = s.dt)

/-- FX18 is ticked in its own cycle: the timer holds `V[X] − 1`, and the cycle beeps exactly when `V[X] = 1`, a write
of 0 over 1 included (R135, R155, R174; R174 is marked as derived, R155 as the spec's decision D28). -/
def Obligations.SoundTimerSameCycle : Prop :=
  ∀ (s : State) (op : Word) (x : Reg), s.fault = none → s.fetchWord = .word op → decode op = .ok (.ldStVx x) →
    ∃ t, step s = .next t ∧ t.result = some .normal ∧ t.st.toNat = (s.getV x).toNat - 1 ∧
      t.events = s.events ++ (if (s.getV x).toNat = 1 then [.beep] else [])

/-- A Blocked cycle: with no key pressed FX0A leaves everything but `current_opcode` as it was; under
KEYWAIT_BLOCKED_TICK the timers tick (R133, R73; parameter D11, log entry 6). -/
def Obligations.BlockedCycle : Prop :=
  ∀ (s : State) (op : Word) (x : Reg), s.fault = none → s.fetchWord = .word op → decode op = .ok (.ldKey x) →
    (∀ k : Reg, s.keys[k.val] = false) →
      ∃ t, step s = .next t ∧ t.result = some .blocked ∧ t.currentOpcode = op ∧
        (s.params.keywaitBlockedTick = false → changesOnly [] [.result, .opcode] s t) ∧
        (s.params.keywaitBlockedTick = true → t.dt.toNat = s.dt.toNat - 1 ∧ t.st.toNat = s.st.toNat - 1 ∧
          t.events = s.events ++ (if s.st.toNat = 1 then [.beep] else []) ∧
          changesOnly [] [.result, .opcode, .delayTimer, .soundTimer, .events] s t)

/-- With FX29_PC_DELTA = 0, FX29 never gets past itself: its cycle is Normal, sets `I`, ticks both timers with their Beep,
changes nothing else but `current_opcode`, and ends with no fault, the same parameter, the same `pc` and the same word
to fetch, so that the next step meets these hypotheses again (R177; parameter D9, log entry 5). -/
def Obligations.Fx29LoopsUnderDeltaZero : Prop :=
  ∀ (s : State) (op : Word) (x : Reg), s.fault = none → s.fetchWord = .word op → decode op = .ok (.ldFont x) →
    s.params.fx29PcDelta = .zero →
      ∃ t, step s = .next t ∧ t.result = some .normal ∧ t.index.toNat = 5 * (s.getV x).toNat ∧
        t.fault = none ∧ t.params.fx29PcDelta = .zero ∧ t.pc = s.pc ∧ t.fetchWord = .word op ∧
        t.dt.toNat = s.dt.toNat - 1 ∧ t.st.toNat = s.st.toNat - 1 ∧
        t.events = s.events ++ (if s.st.toNat = 1 then [.beep] else []) ∧
        changesOnly [] [.index, .delayTimer, .soundTimer, .events, .opcode, .result] s t

/-! ## Control flow (41_control_flow.md) -/

/-- 00EE (R80): the entries of the stack stay as they are, the popped one included. That it keeps its value is the spec's
decision D30 and the form of the fault its decision D8 (log entries 11 and 3). -/
def Obligations.ReturnPops : Prop :=
  decode 0x00EE = .ok .ret ∧
  (∀ (s : State) (k : Reg), s.sp.val = k.val + 1 →
    ∃ t, exec .ret s = .next t ∧ t.sp.val = k.val ∧ t.pc = s.stack[k.val] + 2 ∧
      (∀ j : Reg, t.stack[j.val] = s.stack[j.val]) ∧ changesOnly [] [.pc, .sp] s t) ∧
  (∀ s : State, s.sp.val = 0 → ∃ t, exec .ret s = .next t ∧ raised (.stackUnderflow s.pc) s t)

/-- 1NNN and BNNN (R81, R87): the indexed sum is of `V[0]` and is not reduced to 12 bits, which is the spec's decision D26
(log entry 14, unsafe for a target above 0xFFF). -/
def Obligations.Jumps : Prop :=
  ∀ (nnn : Addr12) (s : State),
    decode (BitVec.ofNat 16 (0x1000 + nnn.toNat)) = .ok (.jp nnn) ∧
    decode (BitVec.ofNat 16 (0xB000 + nnn.toNat)) = .ok (.jpV0 nnn) ∧
    (∃ t, exec (.jp nnn) s = .next t ∧ t.pc.toNat = nnn.toNat ∧ changesOnly [] [.pc] s t) ∧
    (∃ t, exec (.jpV0 nnn) s = .next t ∧ t.pc.toNat = nnn.toNat + (s.getV 0).toNat ∧ changesOnly [] [.pc] s t)

/-- 2NNN (R82): the address saved is that of the 2NNN. -/
def Obligations.CallPushes : Prop :=
  ∀ (nnn : Addr12) (s : State), decode (BitVec.ofNat 16 (0x2000 + nnn.toNat)) = .ok (.call nnn) ∧
    (∀ k : Reg, s.sp.val = k.val →
      ∃ t, exec (.call nnn) s = .next t ∧ t.stack[k.val] = s.pc ∧ t.sp.val = k.val + 1 ∧ t.pc.toNat = nnn.toNat ∧
        (∀ j : Reg, j ≠ k → t.stack[j.val] = s.stack[j.val]) ∧ changesOnly [] [.pc, .sp, .stack] s t) ∧
    (s.sp.val = 16 → ∃ t, exec (.call nnn) s = .next t ∧ raised (.stackOverflow s.pc) s t)

/-- Call and return round trip: the word after the call, and the stack pointer as before it (R88). -/
def Obligations.CallReturnRoundTrip : Prop :=
  ∀ (nnn : Addr12) (s : State), s.sp.val < 16 →
    ∃ t u, exec (.call nnn) s = .next t ∧ exec .ret t = .next u ∧ u.pc = s.pc + 2 ∧ u.sp = s.sp

/-- 3XNN and 4XNN (R83, R84). -/
def Obligations.SkipOnLiteral : Prop :=
  ∀ (x : Reg) (nn : Byte) (s : State),
    decode (BitVec.ofNat 16 (0x3000 + 256 * x.val + nn.toNat)) = .ok (.seImm x nn) ∧
    decode (BitVec.ofNat 16 (0x4000 + 256 * x.val + nn.toNat)) = .ok (.sneImm x nn) ∧
    (∃ t, exec (.seImm x nn) s = .next t ∧ t.pc = (if s.getV x = nn then s.pc + 4 else s.pc + 2) ∧
      changesOnly [] [.pc] s t) ∧
    (∃ t, exec (.sneImm x nn) s = .next t ∧ t.pc = (if s.getV x ≠ nn then s.pc + 4 else s.pc + 2) ∧
      changesOnly [] [.pc] s t)

/-- 5XY0 and 9XY0 (R85, R86): the low nibble must be 0; with another one the word is unknown, which is the spec's decision
D6 (conflict C2, log entry 12; R56 is marked as derived). -/
def Obligations.SkipOnRegisters : Prop :=
  ∀ (x y : Reg) (s : State),
    decode (BitVec.ofNat 16 (0x5000 + 256 * x.val + 16 * y.val)) = .ok (.seReg x y) ∧
    decode (BitVec.ofNat 16 (0x9000 + 256 * x.val + 16 * y.val)) = .ok (.sneReg x y) ∧
    (∀ (n : Fin 16) (op : Word), n ≠ 0 →
      (op = BitVec.ofNat 16 (0x5000 + 256 * x.val + 16 * y.val + n.val) ∨
        op = BitVec.ofNat 16 (0x9000 + 256 * x.val + 16 * y.val + n.val)) →
      decode op = .error (.unknownOpcode op)) ∧
    (∃ t, exec (.seReg x y) s = .next t ∧ t.pc = (if s.getV x = s.getV y then s.pc + 4 else s.pc + 2) ∧
      changesOnly [] [.pc] s t) ∧
    (∃ t, exec (.sneReg x y) s = .next t ∧ t.pc = (if s.getV x ≠ s.getV y then s.pc + 4 else s.pc + 2) ∧
      changesOnly [] [.pc] s t)

/-! ## Registers and arithmetic (42_alu.md) -/

/-- 6XNN (R90). -/
def Obligations.LoadLiteral : Prop :=
  ∀ (x : Reg) (nn : Byte) (s : State),
    decode (BitVec.ofNat 16 (0x6000 + 256 * x.val + nn.toNat)) = .ok (.ldImm x nn) ∧
    ∃ t, exec (.ldImm x nn) s = .next t ∧ t.getV x = nn ∧ t.pc = s.pc + 2 ∧ changesOnly [x] [.pc] s t

/-- 7XNN (R91): no flag, `VF` included among the unchanged registers unless it is `V[X]`. That it sets no flag is the
spec's decision D12 (R103, log entry 4, unsafe). -/
def Obligations.AddLiteral : Prop :=
  ∀ (x : Reg) (nn : Byte) (s : State),
    decode (BitVec.ofNat 16 (0x7000 + 256 * x.val + nn.toNat)) = .ok (.addImm x nn) ∧
    ∃ t, exec (.addImm x nn) s = .next t ∧ (t.getV x).toNat = ((s.getV x).toNat + nn.toNat) % 256 ∧
      t.pc = s.pc + 2 ∧ changesOnly [x] [.pc] s t

/-- 8XY0 to 8XY3 (R92 to R95): one write, `VF` untouched unless it is `V[X]`. Which low nibble is which operation, and
that `VF` is left alone, are the spec's decision D12 (log entry 4). -/
def Obligations.MoveAndLogic : Prop :=
  ∀ (x y : Reg) (s : State),
    decode (BitVec.ofNat 16 (0x8000 + 256 * x.val + 16 * y.val)) = .ok (.ldReg x y) ∧
    decode (BitVec.ofNat 16 (0x8001 + 256 * x.val + 16 * y.val)) = .ok (.orReg x y) ∧
    decode (BitVec.ofNat 16 (0x8002 + 256 * x.val + 16 * y.val)) = .ok (.andReg x y) ∧
    decode (BitVec.ofNat 16 (0x8003 + 256 * x.val + 16 * y.val)) = .ok (.xorReg x y) ∧
    (∃ t, exec (.ldReg x y) s = .next t ∧ t.getV x = s.getV y ∧ t.pc = s.pc + 2 ∧ changesOnly [x] [.pc] s t) ∧
    (∃ t, exec (.orReg x y) s = .next t ∧ t.getV x = s.getV x ||| s.getV y ∧ t.pc = s.pc + 2 ∧
      changesOnly [x] [.pc] s t) ∧
    (∃ t, exec (.andReg x y) s = .next t ∧ t.getV x = s.getV x &&& s.getV y ∧ t.pc = s.pc + 2 ∧
      changesOnly [x] [.pc] s t) ∧
    (∃ t, exec (.xorReg x y) s = .next t ∧ t.getV x = s.getV x ^^^ s.getV y ∧ t.pc = s.pc + 2 ∧
      changesOnly [x] [.pc] s t)

/-- 8XY4 (R96) in every case of its table: the flag `c` of the old values goes to `VF` first, and the sum is taken of
the registers as they stand then, so `X = 15` and `Y = 15` read `c`. The order is the spec's decision D13 (log entry
4). -/
def Obligations.AddWithCarry : Prop :=
  ∀ (x y : Reg) (s : State),
    decode (BitVec.ofNat 16 (0x8004 + 256 * x.val + 16 * y.val)) = .ok (.addReg x y) ∧
    ∃ t, exec (.addReg x y) s = .next t ∧ t.pc = s.pc + 2 ∧ changesOnly [x, 15] [.pc] s t ∧
      ∀ c : Nat, c = (if (s.getV x).toNat + (s.getV y).toNat > 255 then 1 else 0) →
        (x ≠ 15 → (t.getV 15).toNat = c) ∧
        (x ≠ 15 → y ≠ 15 → (t.getV x).toNat = ((s.getV x).toNat + (s.getV y).toNat) % 256) ∧
        (x = 15 → y ≠ 15 → (t.getV 15).toNat = (c + (s.getV y).toNat) % 256) ∧
        (x ≠ 15 → y = 15 → (t.getV x).toNat = ((s.getV x).toNat + c) % 256) ∧
        (x = 15 → y = 15 → (t.getV 15).toNat = 2 * c)

/-- 8XY5 (R97) in every case of its table; the order of the two writes is the spec's decision D13 (log entry 4). -/
def Obligations.SubtractWithBorrow : Prop :=
  ∀ (x y : Reg) (s : State),
    decode (BitVec.ofNat 16 (0x8005 + 256 * x.val + 16 * y.val)) = .ok (.subReg x y) ∧
    ∃ t, exec (.subReg x y) s = .next t ∧ t.pc = s.pc + 2 ∧ changesOnly [x, 15] [.pc] s t ∧
      ∀ nb : Nat, nb = (if (s.getV y).toNat > (s.getV x).toNat then 0 else 1) →
        (x ≠ 15 → (t.getV 15).toNat = nb) ∧
        (x ≠ 15 → y ≠ 15 → (t.getV x).toNat = ((s.getV x).toNat + 256 - (s.getV y).toNat) % 256) ∧
        (x = 15 → y ≠ 15 → (t.getV 15).toNat = (nb + 256 - (s.getV y).toNat) % 256) ∧
        (x ≠ 15 → y = 15 → (t.getV x).toNat = ((s.getV x).toNat + 256 - nb) % 256) ∧
        (x = 15 → y = 15 → (t.getV 15).toNat = 0)

/-- 8XY7 (R99) in every case of its table; the order of the two writes is the spec's decision D13 (log entry 4). -/
def Obligations.SubtractReversed : Prop :=
  ∀ (x y : Reg) (s : State),
    decode (BitVec.ofNat 16 (0x8007 + 256 * x.val + 16 * y.val)) = .ok (.subnReg x y) ∧
    ∃ t, exec (.subnReg x y) s = .next t ∧ t.pc = s.pc + 2 ∧ changesOnly [x, 15] [.pc] s t ∧
      ∀ nb : Nat, nb = (if (s.getV x).toNat > (s.getV y).toNat then 0 else 1) →
        (x ≠ 15 → (t.getV 15).toNat = nb) ∧
        (x ≠ 15 → y ≠ 15 → (t.getV x).toNat = ((s.getV y).toNat + 256 - (s.getV x).toNat) % 256) ∧
        (x = 15 → y ≠ 15 → (t.getV 15).toNat = ((s.getV y).toNat + 256 - nb) % 256) ∧
        (x ≠ 15 → y = 15 → (t.getV x).toNat = (nb + 256 - (s.getV x).toNat) % 256) ∧
        (x = 15 → y = 15 → (t.getV 15).toNat = 0)

/-- 8XY6 (R98), for every `Y`; ignoring `Y` and the order of the two writes are the spec's decisions D14 and D13 (log
entry 4). -/
def Obligations.ShiftRight : Prop :=
  ∀ (x y : Reg) (s : State),
    decode (BitVec.ofNat 16 (0x8006 + 256 * x.val + 16 * y.val)) = .ok (.shr x y) ∧
    ∃ t, exec (.shr x y) s = .next t ∧ t.pc = s.pc + 2 ∧ changesOnly [x, 15] [.pc] s t ∧
      (x ≠ 15 → (t.getV 15).toNat = (s.getV x).toNat % 2 ∧ (t.getV x).toNat = (s.getV x).toNat / 2) ∧
      (x = 15 → (t.getV 15).toNat = 0)

/-- 8XYE (R100), for every `Y`; ignoring `Y` and the order of the two writes are the spec's decisions D14 and D13 (log
entry 4). -/
def Obligations.ShiftLeft : Prop :=
  ∀ (x y : Reg) (s : State),
    decode (BitVec.ofNat 16 (0x800E + 256 * x.val + 16 * y.val)) = .ok (.shl x y) ∧
    ∃ t, exec (.shl x y) s = .next t ∧ t.pc = s.pc + 2 ∧ changesOnly [x, 15] [.pc] s t ∧
      (x ≠ 15 → (t.getV 15).toNat = (s.getV x).toNat / 128 ∧
        (t.getV x).toNat = (2 * (s.getV x).toNat) % 256) ∧
      (x = 15 → (t.getV 15).toNat = (if (s.getV 15).toNat ≥ 128 then 2 else 0))

/-- CXNN (R104): the result has no bit that `NN` has clear, whatever the byte drawn. The byte is the model's free
value and `draws` its counter (log entry 2). -/
def Obligations.RandomMasked : Prop :=
  ∀ (x : Reg) (nn : Byte) (s : State),
    decode (BitVec.ofNat 16 (0xC000 + 256 * x.val + nn.toNat)) = .ok (.rnd x nn) ∧
    ∃ t, exec (.rnd x nn) s = .next t ∧ t.getV x = Config.rnd s.draws &&& nn ∧
      (t.getV x).toNat ≤ nn.toNat ∧ t.pc = s.pc + 2 ∧ t.draws = s.draws + 1 ∧ changesOnly [x] [.pc, .draws] s t

/-! ## Index register and memory (43_index_memory.md) -/

/-- ANNN (R110). -/
def Obligations.LoadIndex : Prop :=
  ∀ (nnn : Addr12) (s : State), decode (BitVec.ofNat 16 (0xA000 + nnn.toNat)) = .ok (.ldIndex nnn) ∧
    ∃ t, exec (.ldIndex nnn) s = .next t ∧ t.index.toNat = nnn.toNat ∧ t.pc = s.pc + 2 ∧
      changesOnly [] [.pc, .index] s t

/-- FX1E (R111): `I` from the old `V[X]`, then `VF` from the new 16-bit `I`. That the flag tests the wrapped value is
the spec's decision D15, which errs to neither side (log entry 7). -/
def Obligations.AddToIndex : Prop :=
  ∀ (x : Reg) (s : State), decode (BitVec.ofNat 16 (0xF01E + 256 * x.val)) = .ok (.addIndex x) ∧
    ∃ t, exec (.addIndex x) s = .next t ∧ t.index.toNat = (s.index.toNat + (s.getV x).toNat) % 65536 ∧
      (t.getV 15).toNat = (if t.index.toNat > 0xFFF then 1 else 0) ∧ t.pc = s.pc + 2 ∧
      changesOnly [15] [.pc, .index] s t

/-- FX29 (R112), for both values of FX29_PC_DELTA (parameter D9, log entry 5). -/
def Obligations.FontGlyphAddress : Prop :=
  ∀ (x : Reg) (s : State), decode (BitVec.ofNat 16 (0xF029 + 256 * x.val)) = .ok (.ldFont x) ∧
    ∃ t, exec (.ldFont x) s = .next t ∧ t.index.toNat = 5 * (s.getV x).toNat ∧
      (s.params.fx29PcDelta = .two → t.pc = s.pc + 2) ∧ (s.params.fx29PcDelta = .zero → t.pc = s.pc) ∧
      changesOnly [] [.pc, .index] s t

/-- FX33 (R113): the three decimal digits, hundreds at the lowest address, every other byte as before; out of bounds
nothing is written (the spec's decisions D4 and D8, log entry 3). That a store below 512 is performed is its decision
D3 (conflict C8, log entry 13, unsafe). -/
def Obligations.BcdStored : Prop :=
  ∀ (x : Reg) (s : State), decode (BitVec.ofNat 16 (0xF033 + 256 * x.val)) = .ok (.ldBcd x) ∧
    (s.index.toNat + 2 ≤ 4095 →
      ∃ t, exec (.ldBcd x) s = .next t ∧
        (t.readByte s.index.toNat).toNat = (s.getV x).toNat / 100 ∧
        (t.readByte (s.index.toNat + 1)).toNat = (s.getV x).toNat / 10 % 10 ∧
        (t.readByte (s.index.toNat + 2)).toNat = (s.getV x).toNat % 10 ∧
        (∀ a, (a < s.index.toNat ∨ s.index.toNat + 2 < a) → t.readByte a = s.readByte a) ∧
        t.pc = s.pc + 2 ∧ changesOnly [] [.pc, .memory] s t) ∧
    (s.index.toNat + 2 > 4095 →
      ∃ t, exec (.ldBcd x) s = .next t ∧ raised (.memoryOutOfBounds (max s.index.toNat 4096)) s t)

/-- FX55 (R114): `V[0]` to `V[X]` inclusive at `I` and up, every other byte as before, `I` incremented by `X + 1`; out
of bounds nothing is written (the spec's decisions D4, D8 and D27, log entries 3 and 4). That a store below 512 is
performed is its decision D3 (conflict C8, log entry 13, unsafe). -/
def Obligations.RegistersStored : Prop :=
  ∀ (x : Reg) (s : State), decode (BitVec.ofNat 16 (0xF055 + 256 * x.val)) = .ok (.storeRegs x) ∧
    (s.index.toNat + x.val ≤ 4095 →
      ∃ t, exec (.storeRegs x) s = .next t ∧
        (∀ k : Reg, k ≤ x → t.readByte (s.index.toNat + k.val) = s.getV k) ∧
        (∀ a, (a < s.index.toNat ∨ s.index.toNat + x.val < a) → t.readByte a = s.readByte a) ∧
        t.index.toNat = s.index.toNat + x.val + 1 ∧ t.pc = s.pc + 2 ∧
        changesOnly [] [.pc, .memory, .index] s t) ∧
    (s.index.toNat + x.val > 4095 →
      ∃ t, exec (.storeRegs x) s = .next t ∧ raised (.memoryOutOfBounds (max s.index.toNat 4096)) s t)

/-- FX65 (R115): `V[0]` to `V[X]` inclusive from `I` and up, the registers above as before, `I` incremented by
`X + 1`; out of bounds nothing is loaded (the spec's decisions D4, D8 and D27, log entries 3 and 4). -/
def Obligations.RegistersLoaded : Prop :=
  ∀ (x : Reg) (s : State), decode (BitVec.ofNat 16 (0xF065 + 256 * x.val)) = .ok (.loadRegs x) ∧
    (s.index.toNat + x.val ≤ 4095 →
      ∃ t, exec (.loadRegs x) s = .next t ∧
        (∀ k : Reg, k ≤ x → t.getV k = s.readByte (s.index.toNat + k.val)) ∧
        (∀ k : Reg, x < k → t.getV k = s.getV k) ∧
        t.index.toNat = s.index.toNat + x.val + 1 ∧ t.pc = s.pc + 2 ∧
        changesOnly (List.finRange 16) [.pc, .index] s t) ∧
    (s.index.toNat + x.val > 4095 →
      ∃ t, exec (.loadRegs x) s = .next t ∧ raised (.memoryOutOfBounds (max s.index.toNat 4096)) s t)

/-- The stores of FX55 and FX33 are seen by the very next fetch, at every address (R39, which the spec marks as derived):
for `b` the bytes of memory as R114 and R113 leave them, the fetch at any `pc` up to 4094 gives the big-endian word of
`b`. Every `X`, both instructions, and fetches that overlap the stored bytes in part are covered; for `I` below 512 it
rests on the spec's decision D3 (log entry 13, unsafe), and an odd `pc` on its decision D5 (log entry 14). -/
def Obligations.StoredCodeIsFetched : Prop :=
  ∀ (x : Reg) (s : State) (pc : Word) (b : Nat → Byte), pc.toNat ≤ 4094 →
    (s.index.toNat + x.val ≤ 4095 → (∀ k : Reg, k ≤ x → b (s.index.toNat + k.val) = s.getV k) →
      (∀ a, (a < s.index.toNat ∨ s.index.toNat + x.val < a) → b a = s.readByte a) →
      ∃ t op, exec (.storeRegs x) s = .next t ∧ State.fetchWord { t with pc := pc } = .word op ∧
        op.toNat = 256 * (b pc.toNat).toNat + (b (pc.toNat + 1)).toNat) ∧
    (s.index.toNat + 2 ≤ 4095 → (b s.index.toNat).toNat = (s.getV x).toNat / 100 →
      (b (s.index.toNat + 1)).toNat = (s.getV x).toNat / 10 % 10 →
      (b (s.index.toNat + 2)).toNat = (s.getV x).toNat % 10 →
      (∀ a, (a < s.index.toNat ∨ s.index.toNat + 2 < a) → b a = s.readByte a) →
      ∃ t op, exec (.ldBcd x) s = .next t ∧ State.fetchWord { t with pc := pc } = .word op ∧
        op.toNat = 256 * (b pc.toNat).toNat + (b (pc.toNat + 1)).toNat)

/-! ## Display (44_display.md) -/

/-- 00E0 (R120): every pixel 0, the snapshot of 2048 zeros, one event, `VF` untouched. -/
def Obligations.ScreenCleared : Prop :=
  decode 0x00E0 = .ok .cls ∧
  ∀ s : State, ∃ t, exec .cls s = .next t ∧ (∀ px py, Frame.pixel t.fb px py = false) ∧
    Frame.bytes t.fb = List.replicate 2048 0 ∧ t.events = s.events ++ [.frameReady t.fb] ∧ t.pc = s.pc + 2 ∧
    changesOnly [] [.pc, .display, .events] s t

/-- DXYN (R121) when its sprite lies in memory and its lit bits on the grid: exactly the covered pixels toggle, `VF`
is 1 if a covered pixel was set and else 0, and one FrameReady carries the framebuffer after the update. Bit order,
edge rule and operand order are the spec's decisions D16, D17 and D18 (log entries 3 and 4). -/
def Obligations.SpriteDrawn : Prop :=
  ∀ (x y : Reg) (n : Fin 16) (s : State),
    decode (BitVec.ofNat 16 (0xD000 + 256 * x.val + 16 * y.val + n.val)) = .ok (.drw x y n) ∧
    (spriteInMemory s n → spriteOnGrid s x y n →
      ∃ t, exec (.drw x y n) s = .next t ∧
        (∀ px py, px ≤ 63 → py ≤ 31 → spriteCovers s x y n px py →
          Frame.pixel t.fb px py = !Frame.pixel s.fb px py) ∧
        (∀ px py, px ≤ 63 → py ≤ 31 → ¬ spriteCovers s x y n px py →
          Frame.pixel t.fb px py = Frame.pixel s.fb px py) ∧
        ((∃ px py, spriteCovers s x y n px py ∧ Frame.pixel s.fb px py = true) → t.getV 15 = 1) ∧
        ((¬ ∃ px py, spriteCovers s x y n px py ∧ Frame.pixel s.fb px py = true) → t.getV 15 = 0) ∧
        t.events = s.events ++ [.frameReady t.fb] ∧ t.pc = s.pc + 2 ∧
        changesOnly [15] [.pc, .display, .events] s t)

/-- DXYN out of bounds (R121, R123, R145, R147, R150): sprite bytes beyond memory are reported before anything else;
then the first lit bit off the grid in row-major order; nothing is drawn either way. These faults are the spec's
decisions D4, D17 and D24 (log entry 3). -/
def Obligations.SpriteFaults : Prop :=
  ∀ (x y : Reg) (n : Fin 16) (s : State),
    (1 ≤ n.val → s.index.toNat + n.val - 1 > 4095 →
      ∃ t, exec (.drw x y n) s = .next t ∧ raised (.memoryOutOfBounds (max s.index.toNat 4096)) s t) ∧
    (spriteInMemory s n → ∀ r c, spriteLit s n r c →
      (63 < (s.getV x).toNat + c ∨ 31 < (s.getV y).toNat + r) →
      (∀ r' c', spriteLit s n r' c' → (r' < r ∨ (r' = r ∧ c' < c)) →
        (s.getV x).toNat + c' ≤ 63 ∧ (s.getV y).toNat + r' ≤ 31) →
      ∃ t, exec (.drw x y n) s = .next t ∧
        raised (.displayOutOfBounds ((s.getV x).toNat + c) ((s.getV y).toNat + r)) s t)

/-- Drawing the same sprite twice at the same place restores the framebuffer, and the second draw collides exactly
when some lit bit of the sprite landed on a clear pixel in the first (R121). The second DXYN may name any registers that
hold the first one's coordinates, `VF` included: `V[X]` and `V[Y]` themselves do, unless they are `VF`, which the first
draw overwrites. Edge rule and flag are the spec's decisions D17 and D18 (log entries 3 and 4). -/
def Obligations.DrawTwiceRestores : Prop :=
  ∀ (x y : Reg) (n : Fin 16) (s : State), spriteInMemory s n → spriteOnGrid s x y n →
    ∃ t, exec (.drw x y n) s = .next t ∧ (x ≠ 15 → t.getV x = s.getV x) ∧ (y ≠ 15 → t.getV y = s.getV y) ∧
      ∀ x' y' : Reg, t.getV x' = s.getV x → t.getV y' = s.getV y →
        ∃ u, exec (.drw x' y' n) t = .next u ∧ u.fb = s.fb ∧
          (u.getV 15 = 1 ↔ ∃ px py, spriteCovers s x y n px py ∧ Frame.pixel s.fb px py = false) ∧
          (u.getV 15 = 0 ∨ u.getV 15 = 1)

/-- The model's way to draw (toggle every lit position, flag from the framebuffer before) is the pixel loop of R121:
no two lit bits of a sprite share a position. -/
def Obligations.DrawLoopAgrees : Prop :=
  ∀ (s : State) (x0 y0 n : Nat), (∀ p ∈ s.litPixels x0 y0 n, offGrid p = false) →
    drawLoop s.fb 0 (s.litPixels x0 y0 n) =
      (Frame.drawn s.fb (s.litPixels x0 y0 n), collisionFlag s.fb (s.litPixels x0 y0 n))

/-! ## Keypad and timers (45_keypad_timers.md) -/

/-- EX9E and EXA1 (R130, R131): a test of the key's level; an index above 15 faults and is not masked (the spec's
decision D19, log entry 3). -/
def Obligations.KeySkips : Prop :=
  ∀ (x : Reg) (s : State),
    decode (BitVec.ofNat 16 (0xE09E + 256 * x.val)) = .ok (.skp x) ∧
    decode (BitVec.ofNat 16 (0xE0A1 + 256 * x.val)) = .ok (.sknp x) ∧
    (∀ k : Reg, (s.getV x).toNat = k.val →
      (∃ t, exec (.skp x) s = .next t ∧ t.pc = (if s.keys[k.val] = true then s.pc + 4 else s.pc + 2) ∧
        changesOnly [] [.pc] s t) ∧
      (∃ t, exec (.sknp x) s = .next t ∧ t.pc = (if s.keys[k.val] = false then s.pc + 4 else s.pc + 2) ∧
        changesOnly [] [.pc] s t)) ∧
    ((s.getV x).toNat > 15 →
      (∃ t, exec (.skp x) s = .next t ∧ raised (.keyIndexOutOfRange (s.getV x)) s t) ∧
      (∃ t, exec (.sknp x) s = .next t ∧ raised (.keyIndexOutOfRange (s.getV x)) s t))

/-- FX07, FX15 and FX18 (R132, R134, R135): `DT` is read as the instruction finds it, a timer takes `V[X]`, and the
instruction itself emits nothing. That FX18 is silent also when it writes 0 over 1 is the spec's decision D28 (R155, log
entry 17, unsafe). -/
def Obligations.TimersReadAndSet : Prop :=
  ∀ (x : Reg) (s : State),
    decode (BitVec.ofNat 16 (0xF007 + 256 * x.val)) = .ok (.ldVxDt x) ∧
    decode (BitVec.ofNat 16 (0xF015 + 256 * x.val)) = .ok (.ldDtVx x) ∧
    decode (BitVec.ofNat 16 (0xF018 + 256 * x.val)) = .ok (.ldStVx x) ∧
    (∃ t, exec (.ldVxDt x) s = .next t ∧ t.getV x = s.dt ∧ t.pc = s.pc + 2 ∧ changesOnly [x] [.pc] s t) ∧
    (∃ t, exec (.ldDtVx x) s = .next t ∧ t.dt = s.getV x ∧ t.pc = s.pc + 2 ∧
      changesOnly [] [.pc, .delayTimer] s t) ∧
    (∃ t, exec (.ldStVx x) s = .next t ∧ t.st = s.getV x ∧ t.pc = s.pc + 2 ∧
      changesOnly [] [.pc, .soundTimer] s t)

/-- FX0A (R133): the highest pressed key and `pc + 2`, or, with no key pressed, a Blocked result and nothing else. The
tie-break is the spec's decision D10 (log entry 4). -/
def Obligations.KeyWait : Prop :=
  ∀ (x : Reg) (s : State), decode (BitVec.ofNat 16 (0xF00A + 256 * x.val)) = .ok (.ldKey x) ∧
    (∀ k : Reg, s.keys[k.val] = true → (∀ j : Reg, k < j → s.keys[j.val] = false) →
      ∃ t, exec (.ldKey x) s = .next t ∧ (t.getV x).toNat = k.val ∧ t.pc = s.pc + 2 ∧ changesOnly [x] [.pc] s t) ∧
    ((∀ k : Reg, s.keys[k.val] = false) →
      ∃ t, exec (.ldKey x) s = .next t ∧ t.result = some .blocked ∧ changesOnly [] [.result] s t)

/-! ## Reset and the host (10_state.md, 20_memory.md, 60_exceptions.md, 70_reset_and_hazards.md) -/

/-- What reset leaves, for every value of the parameters, right after power-on and after a later Construct from any
state (R24, R170). `I`, framebuffer and `current_opcode` are the spec's decision D22, the latch its decision D8. -/
def Obligations.ResetLeaves : Prop :=
  ∀ (p : Params) (t : State), (t = State.resetWith p ∨ ∃ s : State, s.params = p ∧ t = s.construct) →
    (∀ r, t.getV r = 0) ∧ (∀ a, (h : a < 80) → t.readByte a = p.font[a]) ∧ (∀ a, 80 ≤ a → t.readByte a = 0) ∧
    t.index = 0 ∧ t.pc = 512 ∧ t.sp = 0 ∧ (∀ k : Reg, t.stack[k.val] = 0) ∧ t.dt = 0 ∧ t.st = 0 ∧
    (∀ k : Reg, t.keys[k.val] = false) ∧ (∀ px py, Frame.pixel t.fb px py = false) ∧ t.currentOpcode = 0 ∧
    t.fault = none ∧ t.params = p

/-- The invariant holds at reset, for every value of the parameters. -/
def Obligations.InvAtReset : Prop := State.Inv State.reset ∧ ∀ p : Params, State.Inv (State.resetWith p)

/-- Every step keeps the invariant: memory stays canonical, `pc` at most 0x10FE and every stack entry at most 4094
(R15, R16), and a Faulted cycle leaves a fault latched (R148). -/
def Obligations.StepKeepsInv : Prop := ∀ s t : State, s.Inv → step s = .next t → t.Inv

/-- The host's other operations, Construct, LoadProgram and SetKey, keep the invariant (R157). -/
def Obligations.HostKeepsInv : Prop :=
  ∀ (m : HostMove) (s t : State), m ≠ .executeCycle → s.Inv → applyMove m s = .next t → t.Inv

/-- LoadProgram (R41): an image that fits goes to 512 and up, and nothing else changes; one that does not fit changes
no memory and latches LoadError. -/
def Obligations.LoadProgramCopies : Prop :=
  ∀ (s : State) (bytes : List Byte),
    (bytes.length ≤ 3584 →
      loadReport bytes = none ∧
      (∀ k, (h : k < bytes.length) → (s.loadProgram bytes).readByte (512 + k) = bytes[k]) ∧
      (∀ a, (a < 512 ∨ 512 + bytes.length ≤ a) → (s.loadProgram bytes).readByte a = s.readByte a) ∧
      changesOnly [] [.memory] s (s.loadProgram bytes)) ∧
    (3584 < bytes.length →
      loadReport bytes = some (.loadError .capacityExceeded bytes.length) ∧
      (s.fault = none → (s.loadProgram bytes).fault = some (.loadError .capacityExceeded bytes.length)) ∧
      (∀ f, s.fault = some f → (s.loadProgram bytes).fault = some f) ∧
      changesOnly [] [.fault] s (s.loadProgram bytes))

/-- SetKey sets the one key and changes nothing else (R161, R10). -/
def Obligations.SetKeySets : Prop :=
  ∀ (s : State) (k : Reg) (pressed : Bool),
    (s.setKey k pressed).keys[k.val] = pressed ∧
    (∀ j : Reg, j ≠ k → (s.setKey k pressed).keys[j.val] = s.keys[j.val]) ∧
    changesOnly [] [.keypad] s (s.setKey k pressed)

/-! ## Whole-machine rules -/

/-- No instruction writes a register, or any other piece of state, that the spec's tables of writers do not give it:
the registers by R11 and R12, the rest by R18, R19, R22 and R35. Memory is written only in the bytes R35 gives, 3 from
`I` by FX33 and `X + 1` from `I` by FX55; a stack entry only by 2NNN, and only the one at `sp` (R16, R22). That no other
instruction writes `VF` is the spec's decision D12 (log entry 4). -/
def Obligations.OnlyNamedWriters : Prop :=
  ∀ (i : Instr) (s t : State), exec i s = .next t →
    changesOnly (registerWriters i) (partWriters i) s t ∧
    (∀ a, (a < s.baseAddress ∨ s.baseAddress + storeWidth i ≤ a) → t.readByte a = s.readByte a) ∧
    (∀ k : Reg, k.val ≠ s.sp.val → t.stack[k.val] = s.stack[k.val])

/-- A cycle never writes the keypad, whatever it runs: only SetKey and Construct do (R10, R19); nor does it change a
parameter (R6). -/
def Obligations.CycleKeepsKeypad : Prop := ∀ s t : State, step s = .next t → t.keys = s.keys ∧ t.params = s.params

/-- No instruction reads `current_opcode` (R20) or the sound timer (R17, R22): with other values there, exec does the
same, leaves that `current_opcode`, and differs in nothing else but the sound timer itself. -/
def Obligations.HiddenStateUnreadable : Prop :=
  ∀ (i : Instr) (s t : State) (op : Word) (b : Byte), exec i s = .next t →
    ∃ c, exec i { s with currentOpcode := op, st := b } = .next { t with currentOpcode := op, st := c }

/-- No instruction reads a stack slot at or above `sp` (R16, D30): with another value there, exec differs in the stack's
contents only. -/
def Obligations.StaleSlotsUnreadable : Prop :=
  ∀ (i : Instr) (s t u : State) (k : Reg) (w : Word), s.sp.val ≤ k.val → exec i s = .next t →
    exec i { s with stack := s.stack.set k.val w } = .next u → u = { t with stack := u.stack }
end

