-- ==== Sys2Proof/Laws/Memory.lean ====
section
/-! SUPPORT. Laws/Memory.lean: a read after a write, and that every memory operation keeps the canonical form. -/

namespace Sys2Proof.Machine

theorem Memory.find_insert (m : Memory) (a c : Nat) (b : Byte) :
    Memory.find (Memory.insert m a b) c = if c = a then some b else Memory.find m c := by
  induction m with
  | nil => simp [Memory.insert, Memory.find, eq_comm]
  | cons e m ih =>
    obtain ⟨k, w⟩ := e
    simp only [Memory.insert]
    split
    · simp only [Memory.find]
      grind
    · split
      · simp only [Memory.find]
        grind
      · simp only [Memory.find, ih]
        grind

theorem Memory.find_remove (m : Memory) (a c : Nat) :
    Memory.find (Memory.remove m a) c = if c = a then none else Memory.find m c := by
  induction m with
  | nil => simp [Memory.remove, Memory.find]
  | cons e m ih =>
    obtain ⟨k, w⟩ := e
    simp only [Memory.remove]
    split
    · rw [ih]
      simp only [Memory.find]
      grind
    · simp only [Memory.find, ih]
      grind

/-- A read after a write: the byte written there, and every other byte as before. -/
@[simp] theorem Memory.read_write (font : Vector Byte 80) (m : Memory) (a c : Nat) (b : Byte) :
    Memory.read font (Memory.write font m a b) c = if c = a then b else Memory.read font m c := by
  unfold Memory.read Memory.write
  split
  · rename_i h
    rw [Memory.find_remove]
    split <;> simp_all
  · rw [Memory.find_insert]
    split <;> simp

/-- What a run of stores leaves at every address. -/
theorem Memory.read_store (font : Vector Byte 80) (bs : List Byte) (m : Memory) (a c : Nat) :
    Memory.read font (Memory.store font m a bs) c =
      if a ≤ c then bs[c - a]?.getD (Memory.read font m c) else Memory.read font m c := by
  induction bs generalizing m a with
  | nil => simp [Memory.store]
  | cons b bs ih =>
    simp only [Memory.store, ih, Memory.read_write]
    rcases Nat.lt_trichotomy c a with h | h | h
    · have h1 : ¬ a + 1 ≤ c := by omega
      have h2 : ¬ a ≤ c := by omega
      have h3 : ¬ c = a := by omega
      simp [h1, h2, h3]
    · subst h
      have h1 : ¬ c + 1 ≤ c := by omega
      simp [h1]
    · have h1 : a + 1 ≤ c := by omega
      have h2 : a ≤ c := by omega
      have h3 : ¬ c = a := by omega
      have h4 : c - a = (c - (a + 1)) + 1 := by omega
      simp [h1, h2, h3, h4]

/-- A byte inside the stored range. -/
theorem Memory.read_store_in (font : Vector Byte 80) (bs : List Byte) (m : Memory) (a k : Nat) (h : k < bs.length) :
    Memory.read font (Memory.store font m a bs) (a + k) = bs[k] := by
  simp [Memory.read_store, h]

/-- A byte outside the stored range. -/
theorem Memory.read_store_out (font : Vector Byte 80) (bs : List Byte) (m : Memory) (a c : Nat)
    (h : c < a ∨ a + bs.length ≤ c) :
    Memory.read font (Memory.store font m a bs) c = Memory.read font m c := by
  rw [Memory.read_store]
  split
  · rw [List.getElem?_eq_none (by omega)]
    rfl
  · rfl

theorem Memory.wfFrom_mono (font : Vector Byte 80) {lo lo' : Nat} (m : Memory) (h : lo' ≤ lo)
    (hm : Memory.wfFrom font lo m = true) : Memory.wfFrom font lo' m = true := by
  cases m with
  | nil => rfl
  | cons e m =>
    obtain ⟨k, w⟩ := e
    simp only [Memory.wfFrom, Bool.and_eq_true, decide_eq_true_eq] at hm ⊢
    exact ⟨⟨⟨by omega, hm.1.1.2⟩, hm.1.2⟩, hm.2⟩

theorem Memory.wfFrom_insert (font : Vector Byte 80) (m : Memory) (lo a : Nat) (b : Byte) (hlo : lo ≤ a)
    (ha : a < 4096) (hb : b ≠ Memory.background font a) (hm : Memory.wfFrom font lo m = true) :
    Memory.wfFrom font lo (Memory.insert m a b) = true := by
  induction m generalizing lo with
  | nil => simp [Memory.insert, Memory.wfFrom, hlo, ha, hb]
  | cons e m ih =>
    obtain ⟨k, w⟩ := e
    simp only [Memory.wfFrom, Bool.and_eq_true, decide_eq_true_eq] at hm
    obtain ⟨⟨⟨h1, h2⟩, h3⟩, h4⟩ := hm
    simp only [Memory.insert]
    split
    · rename_i hlt
      simp only [Memory.wfFrom, Bool.and_eq_true, decide_eq_true_eq]
      exact ⟨⟨⟨hlo, ha⟩, hb⟩, ⟨⟨by omega, h2⟩, h3⟩, h4⟩
    · split
      · rename_i _ heq
        subst heq
        simp only [Memory.wfFrom, Bool.and_eq_true, decide_eq_true_eq]
        exact ⟨⟨⟨hlo, ha⟩, hb⟩, h4⟩
      · simp only [Memory.wfFrom, Bool.and_eq_true, decide_eq_true_eq]
        exact ⟨⟨⟨h1, h2⟩, h3⟩, ih (k + 1) (by omega) h4⟩

theorem Memory.wfFrom_remove (font : Vector Byte 80) (m : Memory) (lo a : Nat)
    (hm : Memory.wfFrom font lo m = true) : Memory.wfFrom font lo (Memory.remove m a) = true := by
  induction m generalizing lo with
  | nil => rfl
  | cons e m ih =>
    obtain ⟨k, w⟩ := e
    simp only [Memory.wfFrom, Bool.and_eq_true, decide_eq_true_eq] at hm
    obtain ⟨⟨⟨h1, h2⟩, h3⟩, h4⟩ := hm
    simp only [Memory.remove]
    split
    · exact Memory.wfFrom_mono font _ (by omega) (ih (k + 1) h4)
    · simp only [Memory.wfFrom, Bool.and_eq_true, decide_eq_true_eq]
      exact ⟨⟨⟨h1, h2⟩, h3⟩, ih (k + 1) h4⟩

/-- A write below 4096 keeps the canonical form. -/
theorem Memory.wf_write (font : Vector Byte 80) (m : Memory) (a : Nat) (b : Byte) (ha : a < 4096)
    (hm : Memory.wf font m = true) : Memory.wf font (Memory.write font m a b) = true := by
  unfold Memory.wf Memory.write at *
  split
  · exact Memory.wfFrom_remove font m 0 a hm
  · rename_i h
    exact Memory.wfFrom_insert font m 0 a b (Nat.zero_le a) ha h hm

/-- A run of stores below 4096 keeps the canonical form. -/
theorem Memory.wf_store (font : Vector Byte 80) (bs : List Byte) (m : Memory) (a : Nat) (ha : a + bs.length ≤ 4096)
    (hm : Memory.wf font m = true) : Memory.wf font (Memory.store font m a bs) = true := by
  induction bs generalizing m a with
  | nil => exact hm
  | cons b bs ih =>
    simp only [List.length_cons] at ha
    exact ih _ _ (by omega) (Memory.wf_write font m a b (by omega) hm)

/-- The memory of the reset state, in which nothing is listed, is canonical. -/
theorem Memory.wf_reset (p : Params) : Memory.wf p.font (State.resetWith p).mem = true := rfl

/-- An unlisted address reads as its background. -/
@[simp] theorem Memory.read_nil (font : Vector Byte 80) (a : Nat) :
    Memory.read font [] a = Memory.background font a := rfl

theorem Memory.find_below (font : Vector Byte 80) (m : Memory) (lo a : Nat) (h : a < lo)
    (hm : Memory.wfFrom font lo m = true) : Memory.find m a = none := by
  induction m generalizing lo with
  | nil => rfl
  | cons e m ih =>
    obtain ⟨k, w⟩ := e
    simp only [Memory.wfFrom, Bool.and_eq_true, decide_eq_true_eq] at hm
    have hk : k ≠ a := by omega
    simp only [Memory.find, if_neg hk]
    exact ih (k + 1) (by omega) hm.2

/-- The head of a canonical memory is the lowest address that does not read as its background. -/
theorem Memory.read_head (font : Vector Byte 80) (m : Memory) (k : Nat) (w : Byte) :
    Memory.read font ((k, w) :: m) k = w := by
  simp [Memory.read, Memory.find]

theorem Memory.read_below (font : Vector Byte 80) (m : Memory) (lo a : Nat) (h : a < lo)
    (hm : Memory.wfFrom font lo m = true) : Memory.read font m a = Memory.background font a := by
  simp [Memory.read, Memory.find_below font m lo a h hm]

theorem Memory.read_tail (font : Vector Byte 80) (m : Memory) (k a : Nat) (w : Byte)
    (hm : Memory.wfFrom font (k + 1) m = true) :
    Memory.read font m a = if a = k then Memory.background font k else Memory.read font ((k, w) :: m) a := by
  by_cases h : a = k
  · subst h
    simp [Memory.read_below font m (a + 1) a (by omega) hm]
  · have h' : ¬ k = a := fun e => h e.symm
    simp [Memory.read, Memory.find, h, h']

theorem Memory.wfFrom_ext (font : Vector Byte 80) (m m' : Memory) (lo lo' : Nat)
    (hm : Memory.wfFrom font lo m = true) (hm' : Memory.wfFrom font lo' m' = true)
    (h : ∀ a, Memory.read font m a = Memory.read font m' a) : m = m' := by
  induction m generalizing m' lo lo' with
  | nil =>
    cases m' with
    | nil => rfl
    | cons e t =>
      obtain ⟨k, w⟩ := e
      simp only [Memory.wfFrom, Bool.and_eq_true, decide_eq_true_eq] at hm'
      have := h k
      rw [Memory.read_head, Memory.read_nil] at this
      exact absurd this.symm hm'.1.2
  | cons e t ih =>
    obtain ⟨k, w⟩ := e
    simp only [Memory.wfFrom, Bool.and_eq_true, decide_eq_true_eq] at hm
    cases m' with
    | nil =>
      have := h k
      rw [Memory.read_head, Memory.read_nil] at this
      exact absurd this hm.1.2
    | cons e' t' =>
      obtain ⟨k', w'⟩ := e'
      simp only [Memory.wfFrom, Bool.and_eq_true, decide_eq_true_eq] at hm'
      have hkk : k = k' := by
        rcases Nat.lt_trichotomy k k' with hlt | heq | hgt
        · have := h k
          rw [Memory.read_head, Memory.read_below font _ k' k hlt
            (by simp [Memory.wfFrom, hm'.1.1.2, hm'.1.2, hm'.2])] at this
          exact absurd this hm.1.2
        · exact heq
        · have := h k'
          rw [Memory.read_head, Memory.read_below font _ k k' hgt
            (by simp [Memory.wfFrom, hm.1.1.2, hm.1.2, hm.2])] at this
          exact absurd this.symm hm'.1.2
      subst hkk
      have hww : w = w' := by
        have := h k
        rwa [Memory.read_head, Memory.read_head] at this
      subst hww
      refine congrArg _ (ih t' (k + 1) (k + 1) hm.2 hm'.2 fun a => ?_)
      rw [Memory.read_tail font t k a w hm.2, Memory.read_tail font t' k a w hm'.2, h a]

/-- Canonical memories that read the same are the same list. -/
theorem Memory.wf_ext (font : Vector Byte 80) (m m' : Memory) (hm : Memory.wf font m = true)
    (hm' : Memory.wf font m' = true) (h : ∀ a, Memory.read font m a = Memory.read font m' a) : m = m' :=
  Memory.wfFrom_ext font m m' 0 0 hm hm' h

end Sys2Proof.Machine
end

