-- ==== Sys2Proof/Laws/State.lean ====
section
/-! SUPPORT. Laws/State.lean: one lemma per field and per derived reading of every update of the state, each true by
rfl, so that no later proof unfolds a record update. -/

namespace Sys2Proof.Machine

variable (s : State)

@[simp] theorem State.setV_v (r : Reg) (b : Byte) : (s.setV r b).v = s.v.set r.val b := rfl
@[simp] theorem State.setV_mem (r : Reg) (b : Byte) : (s.setV r b).mem = s.mem := rfl
@[simp] theorem State.setV_index (r : Reg) (b : Byte) : (s.setV r b).index = s.index := rfl
@[simp] theorem State.setV_pc (r : Reg) (b : Byte) : (s.setV r b).pc = s.pc := rfl
@[simp] theorem State.setV_sp (r : Reg) (b : Byte) : (s.setV r b).sp = s.sp := rfl
@[simp] theorem State.setV_stack (r : Reg) (b : Byte) : (s.setV r b).stack = s.stack := rfl
@[simp] theorem State.setV_dt (r : Reg) (b : Byte) : (s.setV r b).dt = s.dt := rfl
@[simp] theorem State.setV_st (r : Reg) (b : Byte) : (s.setV r b).st = s.st := rfl
@[simp] theorem State.setV_fb (r : Reg) (b : Byte) : (s.setV r b).fb = s.fb := rfl
@[simp] theorem State.setV_keys (r : Reg) (b : Byte) : (s.setV r b).keys = s.keys := rfl
@[simp] theorem State.setV_currentOpcode (r : Reg) (b : Byte) : (s.setV r b).currentOpcode = s.currentOpcode := rfl
@[simp] theorem State.setV_fault (r : Reg) (b : Byte) : (s.setV r b).fault = s.fault := rfl
@[simp] theorem State.setV_params (r : Reg) (b : Byte) : (s.setV r b).params = s.params := rfl
@[simp] theorem State.setV_draws (r : Reg) (b : Byte) : (s.setV r b).draws = s.draws := rfl
@[simp] theorem State.setV_events (r : Reg) (b : Byte) : (s.setV r b).events = s.events := rfl
@[simp] theorem State.setV_result (r : Reg) (b : Byte) : (s.setV r b).result = s.result := rfl
@[simp] theorem State.setV_readByte (r : Reg) (b : Byte) (c : Nat) : (s.setV r b).readByte c = s.readByte c := rfl

@[simp] theorem State.setIndex_v (w : Word) : (s.setIndex w).v = s.v := rfl
@[simp] theorem State.setIndex_mem (w : Word) : (s.setIndex w).mem = s.mem := rfl
@[simp] theorem State.setIndex_index (w : Word) : (s.setIndex w).index = w := rfl
@[simp] theorem State.setIndex_pc (w : Word) : (s.setIndex w).pc = s.pc := rfl
@[simp] theorem State.setIndex_sp (w : Word) : (s.setIndex w).sp = s.sp := rfl
@[simp] theorem State.setIndex_stack (w : Word) : (s.setIndex w).stack = s.stack := rfl
@[simp] theorem State.setIndex_dt (w : Word) : (s.setIndex w).dt = s.dt := rfl
@[simp] theorem State.setIndex_st (w : Word) : (s.setIndex w).st = s.st := rfl
@[simp] theorem State.setIndex_fb (w : Word) : (s.setIndex w).fb = s.fb := rfl
@[simp] theorem State.setIndex_keys (w : Word) : (s.setIndex w).keys = s.keys := rfl
@[simp] theorem State.setIndex_currentOpcode (w : Word) : (s.setIndex w).currentOpcode = s.currentOpcode := rfl
@[simp] theorem State.setIndex_fault (w : Word) : (s.setIndex w).fault = s.fault := rfl
@[simp] theorem State.setIndex_params (w : Word) : (s.setIndex w).params = s.params := rfl
@[simp] theorem State.setIndex_draws (w : Word) : (s.setIndex w).draws = s.draws := rfl
@[simp] theorem State.setIndex_events (w : Word) : (s.setIndex w).events = s.events := rfl
@[simp] theorem State.setIndex_result (w : Word) : (s.setIndex w).result = s.result := rfl
@[simp] theorem State.setIndex_getV (w : Word) (q : Reg) : (s.setIndex w).getV q = s.getV q := rfl
@[simp] theorem State.setIndex_readByte (w : Word) (c : Nat) : (s.setIndex w).readByte c = s.readByte c := rfl

@[simp] theorem State.setPc_v (w : Word) : (s.setPc w).v = s.v := rfl
@[simp] theorem State.setPc_mem (w : Word) : (s.setPc w).mem = s.mem := rfl
@[simp] theorem State.setPc_index (w : Word) : (s.setPc w).index = s.index := rfl
@[simp] theorem State.setPc_pc (w : Word) : (s.setPc w).pc = w := rfl
@[simp] theorem State.setPc_sp (w : Word) : (s.setPc w).sp = s.sp := rfl
@[simp] theorem State.setPc_stack (w : Word) : (s.setPc w).stack = s.stack := rfl
@[simp] theorem State.setPc_dt (w : Word) : (s.setPc w).dt = s.dt := rfl
@[simp] theorem State.setPc_st (w : Word) : (s.setPc w).st = s.st := rfl
@[simp] theorem State.setPc_fb (w : Word) : (s.setPc w).fb = s.fb := rfl
@[simp] theorem State.setPc_keys (w : Word) : (s.setPc w).keys = s.keys := rfl
@[simp] theorem State.setPc_currentOpcode (w : Word) : (s.setPc w).currentOpcode = s.currentOpcode := rfl
@[simp] theorem State.setPc_fault (w : Word) : (s.setPc w).fault = s.fault := rfl
@[simp] theorem State.setPc_params (w : Word) : (s.setPc w).params = s.params := rfl
@[simp] theorem State.setPc_draws (w : Word) : (s.setPc w).draws = s.draws := rfl
@[simp] theorem State.setPc_events (w : Word) : (s.setPc w).events = s.events := rfl
@[simp] theorem State.setPc_result (w : Word) : (s.setPc w).result = s.result := rfl
@[simp] theorem State.setPc_getV (w : Word) (q : Reg) : (s.setPc w).getV q = s.getV q := rfl
@[simp] theorem State.setPc_readByte (w : Word) (c : Nat) : (s.setPc w).readByte c = s.readByte c := rfl

@[simp] theorem State.advance_v (n : Word) : (s.advance n).v = s.v := rfl
@[simp] theorem State.advance_mem (n : Word) : (s.advance n).mem = s.mem := rfl
@[simp] theorem State.advance_index (n : Word) : (s.advance n).index = s.index := rfl
@[simp] theorem State.advance_pc (n : Word) : (s.advance n).pc = s.pc + n := rfl
@[simp] theorem State.advance_sp (n : Word) : (s.advance n).sp = s.sp := rfl
@[simp] theorem State.advance_stack (n : Word) : (s.advance n).stack = s.stack := rfl
@[simp] theorem State.advance_dt (n : Word) : (s.advance n).dt = s.dt := rfl
@[simp] theorem State.advance_st (n : Word) : (s.advance n).st = s.st := rfl
@[simp] theorem State.advance_fb (n : Word) : (s.advance n).fb = s.fb := rfl
@[simp] theorem State.advance_keys (n : Word) : (s.advance n).keys = s.keys := rfl
@[simp] theorem State.advance_currentOpcode (n : Word) : (s.advance n).currentOpcode = s.currentOpcode := rfl
@[simp] theorem State.advance_fault (n : Word) : (s.advance n).fault = s.fault := rfl
@[simp] theorem State.advance_params (n : Word) : (s.advance n).params = s.params := rfl
@[simp] theorem State.advance_draws (n : Word) : (s.advance n).draws = s.draws := rfl
@[simp] theorem State.advance_events (n : Word) : (s.advance n).events = s.events := rfl
@[simp] theorem State.advance_result (n : Word) : (s.advance n).result = s.result := rfl
@[simp] theorem State.advance_getV (n : Word) (q : Reg) : (s.advance n).getV q = s.getV q := rfl
@[simp] theorem State.advance_readByte (n : Word) (c : Nat) : (s.advance n).readByte c = s.readByte c := rfl

@[simp] theorem State.setDt_v (b : Byte) : (s.setDt b).v = s.v := rfl
@[simp] theorem State.setDt_mem (b : Byte) : (s.setDt b).mem = s.mem := rfl
@[simp] theorem State.setDt_index (b : Byte) : (s.setDt b).index = s.index := rfl
@[simp] theorem State.setDt_pc (b : Byte) : (s.setDt b).pc = s.pc := rfl
@[simp] theorem State.setDt_sp (b : Byte) : (s.setDt b).sp = s.sp := rfl
@[simp] theorem State.setDt_stack (b : Byte) : (s.setDt b).stack = s.stack := rfl
@[simp] theorem State.setDt_dt (b : Byte) : (s.setDt b).dt = b := rfl
@[simp] theorem State.setDt_st (b : Byte) : (s.setDt b).st = s.st := rfl
@[simp] theorem State.setDt_fb (b : Byte) : (s.setDt b).fb = s.fb := rfl
@[simp] theorem State.setDt_keys (b : Byte) : (s.setDt b).keys = s.keys := rfl
@[simp] theorem State.setDt_currentOpcode (b : Byte) : (s.setDt b).currentOpcode = s.currentOpcode := rfl
@[simp] theorem State.setDt_fault (b : Byte) : (s.setDt b).fault = s.fault := rfl
@[simp] theorem State.setDt_params (b : Byte) : (s.setDt b).params = s.params := rfl
@[simp] theorem State.setDt_draws (b : Byte) : (s.setDt b).draws = s.draws := rfl
@[simp] theorem State.setDt_events (b : Byte) : (s.setDt b).events = s.events := rfl
@[simp] theorem State.setDt_result (b : Byte) : (s.setDt b).result = s.result := rfl
@[simp] theorem State.setDt_getV (b : Byte) (q : Reg) : (s.setDt b).getV q = s.getV q := rfl
@[simp] theorem State.setDt_readByte (b : Byte) (c : Nat) : (s.setDt b).readByte c = s.readByte c := rfl

@[simp] theorem State.setSt_v (b : Byte) : (s.setSt b).v = s.v := rfl
@[simp] theorem State.setSt_mem (b : Byte) : (s.setSt b).mem = s.mem := rfl
@[simp] theorem State.setSt_index (b : Byte) : (s.setSt b).index = s.index := rfl
@[simp] theorem State.setSt_pc (b : Byte) : (s.setSt b).pc = s.pc := rfl
@[simp] theorem State.setSt_sp (b : Byte) : (s.setSt b).sp = s.sp := rfl
@[simp] theorem State.setSt_stack (b : Byte) : (s.setSt b).stack = s.stack := rfl
@[simp] theorem State.setSt_dt (b : Byte) : (s.setSt b).dt = s.dt := rfl
@[simp] theorem State.setSt_st (b : Byte) : (s.setSt b).st = b := rfl
@[simp] theorem State.setSt_fb (b : Byte) : (s.setSt b).fb = s.fb := rfl
@[simp] theorem State.setSt_keys (b : Byte) : (s.setSt b).keys = s.keys := rfl
@[simp] theorem State.setSt_currentOpcode (b : Byte) : (s.setSt b).currentOpcode = s.currentOpcode := rfl
@[simp] theorem State.setSt_fault (b : Byte) : (s.setSt b).fault = s.fault := rfl
@[simp] theorem State.setSt_params (b : Byte) : (s.setSt b).params = s.params := rfl
@[simp] theorem State.setSt_draws (b : Byte) : (s.setSt b).draws = s.draws := rfl
@[simp] theorem State.setSt_events (b : Byte) : (s.setSt b).events = s.events := rfl
@[simp] theorem State.setSt_result (b : Byte) : (s.setSt b).result = s.result := rfl
@[simp] theorem State.setSt_getV (b : Byte) (q : Reg) : (s.setSt b).getV q = s.getV q := rfl
@[simp] theorem State.setSt_readByte (b : Byte) (c : Nat) : (s.setSt b).readByte c = s.readByte c := rfl

@[simp] theorem State.push_v (k : Reg) (w : Word) : (s.push k w).v = s.v := rfl
@[simp] theorem State.push_mem (k : Reg) (w : Word) : (s.push k w).mem = s.mem := rfl
@[simp] theorem State.push_index (k : Reg) (w : Word) : (s.push k w).index = s.index := rfl
@[simp] theorem State.push_pc (k : Reg) (w : Word) : (s.push k w).pc = s.pc := rfl
@[simp] theorem State.push_sp (k : Reg) (w : Word) : (s.push k w).sp = k.succ := rfl
@[simp] theorem State.push_stack (k : Reg) (w : Word) : (s.push k w).stack = s.stack.set k.val w := rfl
@[simp] theorem State.push_dt (k : Reg) (w : Word) : (s.push k w).dt = s.dt := rfl
@[simp] theorem State.push_st (k : Reg) (w : Word) : (s.push k w).st = s.st := rfl
@[simp] theorem State.push_fb (k : Reg) (w : Word) : (s.push k w).fb = s.fb := rfl
@[simp] theorem State.push_keys (k : Reg) (w : Word) : (s.push k w).keys = s.keys := rfl
@[simp] theorem State.push_currentOpcode (k : Reg) (w : Word) : (s.push k w).currentOpcode = s.currentOpcode := rfl
@[simp] theorem State.push_fault (k : Reg) (w : Word) : (s.push k w).fault = s.fault := rfl
@[simp] theorem State.push_params (k : Reg) (w : Word) : (s.push k w).params = s.params := rfl
@[simp] theorem State.push_draws (k : Reg) (w : Word) : (s.push k w).draws = s.draws := rfl
@[simp] theorem State.push_events (k : Reg) (w : Word) : (s.push k w).events = s.events := rfl
@[simp] theorem State.push_result (k : Reg) (w : Word) : (s.push k w).result = s.result := rfl
@[simp] theorem State.push_getV (k : Reg) (w : Word) (q : Reg) : (s.push k w).getV q = s.getV q := rfl
@[simp] theorem State.push_readByte (k : Reg) (w : Word) (c : Nat) : (s.push k w).readByte c = s.readByte c := rfl

@[simp] theorem State.pop_v (k : Reg) : (s.pop k).v = s.v := rfl
@[simp] theorem State.pop_mem (k : Reg) : (s.pop k).mem = s.mem := rfl
@[simp] theorem State.pop_index (k : Reg) : (s.pop k).index = s.index := rfl
@[simp] theorem State.pop_pc (k : Reg) : (s.pop k).pc = s.pc := rfl
@[simp] theorem State.pop_sp (k : Reg) : (s.pop k).sp = k.castSucc := rfl
@[simp] theorem State.pop_stack (k : Reg) : (s.pop k).stack = s.stack := rfl
@[simp] theorem State.pop_dt (k : Reg) : (s.pop k).dt = s.dt := rfl
@[simp] theorem State.pop_st (k : Reg) : (s.pop k).st = s.st := rfl
@[simp] theorem State.pop_fb (k : Reg) : (s.pop k).fb = s.fb := rfl
@[simp] theorem State.pop_keys (k : Reg) : (s.pop k).keys = s.keys := rfl
@[simp] theorem State.pop_currentOpcode (k : Reg) : (s.pop k).currentOpcode = s.currentOpcode := rfl
@[simp] theorem State.pop_fault (k : Reg) : (s.pop k).fault = s.fault := rfl
@[simp] theorem State.pop_params (k : Reg) : (s.pop k).params = s.params := rfl
@[simp] theorem State.pop_draws (k : Reg) : (s.pop k).draws = s.draws := rfl
@[simp] theorem State.pop_events (k : Reg) : (s.pop k).events = s.events := rfl
@[simp] theorem State.pop_result (k : Reg) : (s.pop k).result = s.result := rfl
@[simp] theorem State.pop_getV (k : Reg) (q : Reg) : (s.pop k).getV q = s.getV q := rfl
@[simp] theorem State.pop_readByte (k : Reg) (c : Nat) : (s.pop k).readByte c = s.readByte c := rfl

@[simp] theorem State.setFb_v (f : Frame) : (s.setFb f).v = s.v := rfl
@[simp] theorem State.setFb_mem (f : Frame) : (s.setFb f).mem = s.mem := rfl
@[simp] theorem State.setFb_index (f : Frame) : (s.setFb f).index = s.index := rfl
@[simp] theorem State.setFb_pc (f : Frame) : (s.setFb f).pc = s.pc := rfl
@[simp] theorem State.setFb_sp (f : Frame) : (s.setFb f).sp = s.sp := rfl
@[simp] theorem State.setFb_stack (f : Frame) : (s.setFb f).stack = s.stack := rfl
@[simp] theorem State.setFb_dt (f : Frame) : (s.setFb f).dt = s.dt := rfl
@[simp] theorem State.setFb_st (f : Frame) : (s.setFb f).st = s.st := rfl
@[simp] theorem State.setFb_fb (f : Frame) : (s.setFb f).fb = f := rfl
@[simp] theorem State.setFb_keys (f : Frame) : (s.setFb f).keys = s.keys := rfl
@[simp] theorem State.setFb_currentOpcode (f : Frame) : (s.setFb f).currentOpcode = s.currentOpcode := rfl
@[simp] theorem State.setFb_fault (f : Frame) : (s.setFb f).fault = s.fault := rfl
@[simp] theorem State.setFb_params (f : Frame) : (s.setFb f).params = s.params := rfl
@[simp] theorem State.setFb_draws (f : Frame) : (s.setFb f).draws = s.draws := rfl
@[simp] theorem State.setFb_events (f : Frame) : (s.setFb f).events = s.events := rfl
@[simp] theorem State.setFb_result (f : Frame) : (s.setFb f).result = s.result := rfl
@[simp] theorem State.setFb_getV (f : Frame) (q : Reg) : (s.setFb f).getV q = s.getV q := rfl
@[simp] theorem State.setFb_readByte (f : Frame) (c : Nat) : (s.setFb f).readByte c = s.readByte c := rfl

@[simp] theorem State.emit_v (e : Event) : (s.emit e).v = s.v := rfl
@[simp] theorem State.emit_mem (e : Event) : (s.emit e).mem = s.mem := rfl
@[simp] theorem State.emit_index (e : Event) : (s.emit e).index = s.index := rfl
@[simp] theorem State.emit_pc (e : Event) : (s.emit e).pc = s.pc := rfl
@[simp] theorem State.emit_sp (e : Event) : (s.emit e).sp = s.sp := rfl
@[simp] theorem State.emit_stack (e : Event) : (s.emit e).stack = s.stack := rfl
@[simp] theorem State.emit_dt (e : Event) : (s.emit e).dt = s.dt := rfl
@[simp] theorem State.emit_st (e : Event) : (s.emit e).st = s.st := rfl
@[simp] theorem State.emit_fb (e : Event) : (s.emit e).fb = s.fb := rfl
@[simp] theorem State.emit_keys (e : Event) : (s.emit e).keys = s.keys := rfl
@[simp] theorem State.emit_currentOpcode (e : Event) : (s.emit e).currentOpcode = s.currentOpcode := rfl
@[simp] theorem State.emit_fault (e : Event) : (s.emit e).fault = s.fault := rfl
@[simp] theorem State.emit_params (e : Event) : (s.emit e).params = s.params := rfl
@[simp] theorem State.emit_draws (e : Event) : (s.emit e).draws = s.draws := rfl
@[simp] theorem State.emit_events (e : Event) : (s.emit e).events = s.events ++ [e] := rfl
@[simp] theorem State.emit_result (e : Event) : (s.emit e).result = s.result := rfl
@[simp] theorem State.emit_getV (e : Event) (q : Reg) : (s.emit e).getV q = s.getV q := rfl
@[simp] theorem State.emit_readByte (e : Event) (c : Nat) : (s.emit e).readByte c = s.readByte c := rfl

@[simp] theorem State.emitFrame_v : (s.emitFrame).v = s.v := rfl
@[simp] theorem State.emitFrame_mem : (s.emitFrame).mem = s.mem := rfl
@[simp] theorem State.emitFrame_index : (s.emitFrame).index = s.index := rfl
@[simp] theorem State.emitFrame_pc : (s.emitFrame).pc = s.pc := rfl
@[simp] theorem State.emitFrame_sp : (s.emitFrame).sp = s.sp := rfl
@[simp] theorem State.emitFrame_stack : (s.emitFrame).stack = s.stack := rfl
@[simp] theorem State.emitFrame_dt : (s.emitFrame).dt = s.dt := rfl
@[simp] theorem State.emitFrame_st : (s.emitFrame).st = s.st := rfl
@[simp] theorem State.emitFrame_fb : (s.emitFrame).fb = s.fb := rfl
@[simp] theorem State.emitFrame_keys : (s.emitFrame).keys = s.keys := rfl
@[simp] theorem State.emitFrame_currentOpcode : (s.emitFrame).currentOpcode = s.currentOpcode := rfl
@[simp] theorem State.emitFrame_fault : (s.emitFrame).fault = s.fault := rfl
@[simp] theorem State.emitFrame_params : (s.emitFrame).params = s.params := rfl
@[simp] theorem State.emitFrame_draws : (s.emitFrame).draws = s.draws := rfl
@[simp] theorem State.emitFrame_events : (s.emitFrame).events = s.events ++ [.frameReady s.fb] := rfl
@[simp] theorem State.emitFrame_result : (s.emitFrame).result = s.result := rfl
@[simp] theorem State.emitFrame_getV (q : Reg) : (s.emitFrame).getV q = s.getV q := rfl
@[simp] theorem State.emitFrame_readByte (c : Nat) : (s.emitFrame).readByte c = s.readByte c := rfl

@[simp] theorem State.latch_v (f : Fault) : (s.latch f).v = s.v := rfl
@[simp] theorem State.latch_mem (f : Fault) : (s.latch f).mem = s.mem := rfl
@[simp] theorem State.latch_index (f : Fault) : (s.latch f).index = s.index := rfl
@[simp] theorem State.latch_pc (f : Fault) : (s.latch f).pc = s.pc := rfl
@[simp] theorem State.latch_sp (f : Fault) : (s.latch f).sp = s.sp := rfl
@[simp] theorem State.latch_stack (f : Fault) : (s.latch f).stack = s.stack := rfl
@[simp] theorem State.latch_dt (f : Fault) : (s.latch f).dt = s.dt := rfl
@[simp] theorem State.latch_st (f : Fault) : (s.latch f).st = s.st := rfl
@[simp] theorem State.latch_fb (f : Fault) : (s.latch f).fb = s.fb := rfl
@[simp] theorem State.latch_keys (f : Fault) : (s.latch f).keys = s.keys := rfl
@[simp] theorem State.latch_currentOpcode (f : Fault) : (s.latch f).currentOpcode = s.currentOpcode := rfl
@[simp] theorem State.latch_fault (f : Fault) : (s.latch f).fault = s.fault.or (some f) := rfl
@[simp] theorem State.latch_params (f : Fault) : (s.latch f).params = s.params := rfl
@[simp] theorem State.latch_draws (f : Fault) : (s.latch f).draws = s.draws := rfl
@[simp] theorem State.latch_events (f : Fault) : (s.latch f).events = s.events := rfl
@[simp] theorem State.latch_result (f : Fault) : (s.latch f).result = s.result := rfl
@[simp] theorem State.latch_getV (f : Fault) (q : Reg) : (s.latch f).getV q = s.getV q := rfl
@[simp] theorem State.latch_readByte (f : Fault) (c : Nat) : (s.latch f).readByte c = s.readByte c := rfl

@[simp] theorem State.storeBytes_v (a : Nat) (bs : List Byte) : (s.storeBytes a bs).v = s.v := rfl
@[simp] theorem State.storeBytes_mem (a : Nat) (bs : List Byte) : (s.storeBytes a bs).mem = Memory.store s.params.font s.mem a bs := rfl
@[simp] theorem State.storeBytes_index (a : Nat) (bs : List Byte) : (s.storeBytes a bs).index = s.index := rfl
@[simp] theorem State.storeBytes_pc (a : Nat) (bs : List Byte) : (s.storeBytes a bs).pc = s.pc := rfl
@[simp] theorem State.storeBytes_sp (a : Nat) (bs : List Byte) : (s.storeBytes a bs).sp = s.sp := rfl
@[simp] theorem State.storeBytes_stack (a : Nat) (bs : List Byte) : (s.storeBytes a bs).stack = s.stack := rfl
@[simp] theorem State.storeBytes_dt (a : Nat) (bs : List Byte) : (s.storeBytes a bs).dt = s.dt := rfl
@[simp] theorem State.storeBytes_st (a : Nat) (bs : List Byte) : (s.storeBytes a bs).st = s.st := rfl
@[simp] theorem State.storeBytes_fb (a : Nat) (bs : List Byte) : (s.storeBytes a bs).fb = s.fb := rfl
@[simp] theorem State.storeBytes_keys (a : Nat) (bs : List Byte) : (s.storeBytes a bs).keys = s.keys := rfl
@[simp] theorem State.storeBytes_currentOpcode (a : Nat) (bs : List Byte) : (s.storeBytes a bs).currentOpcode = s.currentOpcode := rfl
@[simp] theorem State.storeBytes_fault (a : Nat) (bs : List Byte) : (s.storeBytes a bs).fault = s.fault := rfl
@[simp] theorem State.storeBytes_params (a : Nat) (bs : List Byte) : (s.storeBytes a bs).params = s.params := rfl
@[simp] theorem State.storeBytes_draws (a : Nat) (bs : List Byte) : (s.storeBytes a bs).draws = s.draws := rfl
@[simp] theorem State.storeBytes_events (a : Nat) (bs : List Byte) : (s.storeBytes a bs).events = s.events := rfl
@[simp] theorem State.storeBytes_result (a : Nat) (bs : List Byte) : (s.storeBytes a bs).result = s.result := rfl
@[simp] theorem State.storeBytes_getV (a : Nat) (bs : List Byte) (q : Reg) : (s.storeBytes a bs).getV q = s.getV q := rfl

@[simp] theorem State.bumpIndex_v (x : Reg) : (s.bumpIndex x).v = s.v := rfl
@[simp] theorem State.bumpIndex_mem (x : Reg) : (s.bumpIndex x).mem = s.mem := rfl
@[simp] theorem State.bumpIndex_index (x : Reg) : (s.bumpIndex x).index = s.index + BitVec.ofNat 16 (x.val + 1) := rfl
@[simp] theorem State.bumpIndex_pc (x : Reg) : (s.bumpIndex x).pc = s.pc := rfl
@[simp] theorem State.bumpIndex_sp (x : Reg) : (s.bumpIndex x).sp = s.sp := rfl
@[simp] theorem State.bumpIndex_stack (x : Reg) : (s.bumpIndex x).stack = s.stack := rfl
@[simp] theorem State.bumpIndex_dt (x : Reg) : (s.bumpIndex x).dt = s.dt := rfl
@[simp] theorem State.bumpIndex_st (x : Reg) : (s.bumpIndex x).st = s.st := rfl
@[simp] theorem State.bumpIndex_fb (x : Reg) : (s.bumpIndex x).fb = s.fb := rfl
@[simp] theorem State.bumpIndex_keys (x : Reg) : (s.bumpIndex x).keys = s.keys := rfl
@[simp] theorem State.bumpIndex_currentOpcode (x : Reg) : (s.bumpIndex x).currentOpcode = s.currentOpcode := rfl
@[simp] theorem State.bumpIndex_fault (x : Reg) : (s.bumpIndex x).fault = s.fault := rfl
@[simp] theorem State.bumpIndex_params (x : Reg) : (s.bumpIndex x).params = s.params := rfl
@[simp] theorem State.bumpIndex_draws (x : Reg) : (s.bumpIndex x).draws = s.draws := rfl
@[simp] theorem State.bumpIndex_events (x : Reg) : (s.bumpIndex x).events = s.events := rfl
@[simp] theorem State.bumpIndex_result (x : Reg) : (s.bumpIndex x).result = s.result := rfl
@[simp] theorem State.bumpIndex_getV (x : Reg) (q : Reg) : (s.bumpIndex x).getV q = s.getV q := rfl
@[simp] theorem State.bumpIndex_readByte (x : Reg) (c : Nat) : (s.bumpIndex x).readByte c = s.readByte c := rfl

@[simp] theorem State.beginCycle_v (op : Word) : (s.beginCycle op).v = s.v := rfl
@[simp] theorem State.beginCycle_mem (op : Word) : (s.beginCycle op).mem = s.mem := rfl
@[simp] theorem State.beginCycle_index (op : Word) : (s.beginCycle op).index = s.index := rfl
@[simp] theorem State.beginCycle_pc (op : Word) : (s.beginCycle op).pc = s.pc := rfl
@[simp] theorem State.beginCycle_sp (op : Word) : (s.beginCycle op).sp = s.sp := rfl
@[simp] theorem State.beginCycle_stack (op : Word) : (s.beginCycle op).stack = s.stack := rfl
@[simp] theorem State.beginCycle_dt (op : Word) : (s.beginCycle op).dt = s.dt := rfl
@[simp] theorem State.beginCycle_st (op : Word) : (s.beginCycle op).st = s.st := rfl
@[simp] theorem State.beginCycle_fb (op : Word) : (s.beginCycle op).fb = s.fb := rfl
@[simp] theorem State.beginCycle_keys (op : Word) : (s.beginCycle op).keys = s.keys := rfl
@[simp] theorem State.beginCycle_currentOpcode (op : Word) : (s.beginCycle op).currentOpcode = op := rfl
@[simp] theorem State.beginCycle_fault (op : Word) : (s.beginCycle op).fault = s.fault := rfl
@[simp] theorem State.beginCycle_params (op : Word) : (s.beginCycle op).params = s.params := rfl
@[simp] theorem State.beginCycle_draws (op : Word) : (s.beginCycle op).draws = s.draws := rfl
@[simp] theorem State.beginCycle_events (op : Word) : (s.beginCycle op).events = s.events := rfl
@[simp] theorem State.beginCycle_result (op : Word) : (s.beginCycle op).result = some .normal := rfl
@[simp] theorem State.beginCycle_getV (op : Word) (q : Reg) : (s.beginCycle op).getV q = s.getV q := rfl
@[simp] theorem State.beginCycle_readByte (op : Word) (c : Nat) : (s.beginCycle op).readByte c = s.readByte c := rfl

@[simp] theorem State.tick_v : (s.tick).v = s.v := rfl
@[simp] theorem State.tick_mem : (s.tick).mem = s.mem := rfl
@[simp] theorem State.tick_index : (s.tick).index = s.index := rfl
@[simp] theorem State.tick_pc : (s.tick).pc = s.pc := rfl
@[simp] theorem State.tick_sp : (s.tick).sp = s.sp := rfl
@[simp] theorem State.tick_stack : (s.tick).stack = s.stack := rfl
@[simp] theorem State.tick_dt : (s.tick).dt = countDown s.dt := rfl
@[simp] theorem State.tick_st : (s.tick).st = countDown s.st := rfl
@[simp] theorem State.tick_fb : (s.tick).fb = s.fb := rfl
@[simp] theorem State.tick_keys : (s.tick).keys = s.keys := rfl
@[simp] theorem State.tick_currentOpcode : (s.tick).currentOpcode = s.currentOpcode := rfl
@[simp] theorem State.tick_fault : (s.tick).fault = s.fault := rfl
@[simp] theorem State.tick_params : (s.tick).params = s.params := rfl
@[simp] theorem State.tick_draws : (s.tick).draws = s.draws := rfl
@[simp] theorem State.tick_events : (s.tick).events = s.events ++ beepOf s.st := rfl
@[simp] theorem State.tick_result : (s.tick).result = s.result := rfl
@[simp] theorem State.tick_getV (q : Reg) : (s.tick).getV q = s.getV q := rfl
@[simp] theorem State.tick_readByte (c : Nat) : (s.tick).readByte c = s.readByte c := rfl

@[simp] theorem State.setKey_v (k : Reg) (p : Bool) : (s.setKey k p).v = s.v := rfl
@[simp] theorem State.setKey_mem (k : Reg) (p : Bool) : (s.setKey k p).mem = s.mem := rfl
@[simp] theorem State.setKey_index (k : Reg) (p : Bool) : (s.setKey k p).index = s.index := rfl
@[simp] theorem State.setKey_pc (k : Reg) (p : Bool) : (s.setKey k p).pc = s.pc := rfl
@[simp] theorem State.setKey_sp (k : Reg) (p : Bool) : (s.setKey k p).sp = s.sp := rfl
@[simp] theorem State.setKey_stack (k : Reg) (p : Bool) : (s.setKey k p).stack = s.stack := rfl
@[simp] theorem State.setKey_dt (k : Reg) (p : Bool) : (s.setKey k p).dt = s.dt := rfl
@[simp] theorem State.setKey_st (k : Reg) (p : Bool) : (s.setKey k p).st = s.st := rfl
@[simp] theorem State.setKey_fb (k : Reg) (p : Bool) : (s.setKey k p).fb = s.fb := rfl
@[simp] theorem State.setKey_keys (k : Reg) (p : Bool) : (s.setKey k p).keys = s.keys.set k.val p := rfl
@[simp] theorem State.setKey_currentOpcode (k : Reg) (p : Bool) : (s.setKey k p).currentOpcode = s.currentOpcode := rfl
@[simp] theorem State.setKey_fault (k : Reg) (p : Bool) : (s.setKey k p).fault = s.fault := rfl
@[simp] theorem State.setKey_params (k : Reg) (p : Bool) : (s.setKey k p).params = s.params := rfl
@[simp] theorem State.setKey_draws (k : Reg) (p : Bool) : (s.setKey k p).draws = s.draws := rfl
@[simp] theorem State.setKey_events (k : Reg) (p : Bool) : (s.setKey k p).events = s.events := rfl
@[simp] theorem State.setKey_result (k : Reg) (p : Bool) : (s.setKey k p).result = s.result := rfl
@[simp] theorem State.setKey_getV (k : Reg) (p : Bool) (q : Reg) : (s.setKey k p).getV q = s.getV q := rfl
@[simp] theorem State.setKey_readByte (k : Reg) (p : Bool) (c : Nat) : (s.setKey k p).readByte c = s.readByte c := rfl

end Sys2Proof.Machine
end

