-- ==== Sys2Proof/Laws/Ops.lean ====
section
/-! SUPPORT. Laws/Ops.lean: for each shared operation, one lemma that says everything it can do. -/

namespace Sys2Proof.Machine

/-! ## Registers and memory -/

theorem State.getV_setV (s : State) (r q : Reg) (b : Byte) :
    (s.setV r b).getV q = if q = r then b else s.getV q := by
  simp only [State.getV, State.setV, Vector.getElem_set, Fin.ext_iff, eq_comm]

@[simp] theorem State.getV_setV_self (s : State) (r : Reg) (b : Byte) : (s.setV r b).getV r = b := by
  simp [State.getV_setV]

theorem State.getV_setV_ne (s : State) (r q : Reg) (b : Byte) (h : q ≠ r) : (s.setV r b).getV q = s.getV q := by
  simp [State.getV_setV, h]

/-- The bounds check answers exactly when some byte of the access lies above 4095, with the lowest such address. -/
theorem badAddress_cases (base n : Nat) :
    (badAddress base n = some (max base 4096) ∧ 0 < n ∧ 4096 < base + n) ∨
      (badAddress base n = none ∧ (n = 0 ∨ base + n ≤ 4096)) := by
  unfold badAddress
  split
  · exact .inl ⟨rfl, by omega, by omega⟩
  · exact .inr ⟨rfl, by omega⟩

/-- A byte of stores in the range written. -/
theorem State.readByte_storeBytes_in (s : State) (a k : Nat) (bs : List Byte) (h : k < bs.length) :
    (s.storeBytes a bs).readByte (a + k) = bs[k] := Memory.read_store_in _ bs _ a k h

/-- A byte outside the range written. -/
theorem State.readByte_storeBytes_out (s : State) (a c : Nat) (bs : List Byte)
    (h : c < a ∨ a + bs.length ≤ c) : (s.storeBytes a bs).readByte c = s.readByte c :=
  Memory.read_store_out _ bs _ a c h

/-! ## Stack -/

theorem State.pushSlot_cases (s : State) :
    (∃ k : Reg, s.pushSlot = some k ∧ s.sp.val = k.val) ∨ (s.pushSlot = none ∧ s.sp.val = 16) := by
  unfold State.pushSlot
  split
  · exact .inl ⟨_, rfl, rfl⟩
  · exact .inr ⟨rfl, by omega⟩

theorem State.popSlot_cases (s : State) :
    (∃ k : Reg, s.popSlot = some k ∧ s.sp.val = k.val + 1) ∨ (s.popSlot = none ∧ s.sp.val = 0) := by
  unfold State.popSlot
  split
  · exact .inl ⟨_, rfl, by dsimp only; omega⟩
  · exact .inr ⟨rfl, by omega⟩

/-! ## Raising a fault, and the operations that can raise one -/

/-- Raising a fault always answers a next state, which differs in the latch and the result alone. -/
theorem raiseFault_eq (s : State) (f : Fault) :
    raiseFault s f = .next { s with fault := s.fault.or (some f), result := some .faulted } := rfl

/-- An access through `I` either raises MemoryOutOfBounds or goes on, by the range of its bytes. -/
theorem checkIndexed_cases (n : Nat) (s : State) (go : State → State) :
    (checkIndexed n s go = raiseFault s (.memoryOutOfBounds (max s.baseAddress 4096)) ∧ 0 < n ∧
        4096 < s.index.toNat + n) ∨
      (checkIndexed n s go = .next (go s) ∧ (n = 0 ∨ s.index.toNat + n ≤ 4096)) := by
  unfold checkIndexed
  rcases badAddress_cases s.baseAddress n with ⟨h, h1, h2⟩ | ⟨h, h1⟩
  · exact .inl ⟨by rw [h], h1, h2⟩
  · exact .inr ⟨by rw [h], h1⟩

theorem keyOf_cases (b : Byte) :
    (∃ k : Reg, keyOf b = some k ∧ b.toNat = k.val) ∨ (keyOf b = none ∧ 15 < b.toNat) := by
  unfold keyOf
  split
  · exact .inl ⟨_, rfl, rfl⟩
  · exact .inr ⟨rfl, by omega⟩

/-! ## The shared shapes of instructions -/

theorem skipIf_eq (c : Bool) (s : State) :
    skipIf c s = .next (s.setPc (if c = true then s.pc + 4 else s.pc + 2)) := by
  unfold skipIf
  cases c <;> rfl

theorem writeReg_eq (x : Reg) (b : Byte) (s : State) :
    writeReg x b s = .next ((s.setV x b).setPc (s.pc + 2)) := rfl

/-- What the two assignments of R102 leave in each register: the result is computed with the flag already in `VF`. -/
theorem flagThenResult_spec (x y : Reg) (flag : Byte) (op : Byte → Byte → Byte) (s : State) :
    ∃ t, flagThenResult x y flag op s = .next t ∧ t.pc = s.pc + 2 ∧
      t = { s with v := t.v, pc := t.pc } ∧
      t.getV x = op (if x = 15 then flag else s.getV x) (if y = 15 then flag else s.getV y) ∧
      (x ≠ 15 → t.getV 15 = flag) ∧ ∀ r, r ≠ x → r ≠ 15 → t.getV r = s.getV r := by
  refine ⟨_, rfl, rfl, rfl, ?_, fun h => ?_, fun r h1 h2 => ?_⟩
  · simp [State.getV_setV]
  · simp [State.getV_setV, Ne.symm h]
  · simp [State.getV_setV, h1, h2]

/-! ## Operands -/

theorem State.regBytes_length (s : State) (x : Reg) : (s.regBytes x).length = x.val + 1 := by
  have := x.isLt
  simp only [State.regBytes, List.length_take, Vector.length_toList]
  omega

theorem State.regBytes_get (s : State) (x k : Reg) (h : k.val < (s.regBytes x).length) :
    (s.regBytes x)[k.val] = s.getV k := by
  simp [State.regBytes, State.getV]

theorem State.loadedRegs_get (s : State) (base : Nat) (x k : Reg) :
    (s.loadedRegs base x)[k.val] = if k.val ≤ x.val then s.readByte (base + k.val) else s.getV k := by
  simp [State.loadedRegs, State.getV]

theorem bcdDigits_length (b : Byte) : (bcdDigits b).length = 3 := rfl

/-- FX0A's scan: the highest pressed key, or none because no key is pressed (R133). -/
theorem State.highestKey_cases (s : State) :
    (∃ k : Reg, s.highestKey = some k ∧ s.keys[k.val] = true ∧ ∀ j : Reg, k < j → s.keys[j.val] = false) ∨
      (s.highestKey = none ∧ ∀ k : Reg, s.keys[k.val] = false) := by
  unfold State.highestKey
  cases h : (List.finRange 16).reverse.find? fun k => s.key k with
  | none =>
    refine .inr ⟨rfl, fun k => ?_⟩
    have := List.find?_eq_none.1 h k (by simp)
    simpa [State.key] using this
  | some k =>
    refine .inl ⟨k, rfl, by simpa [State.key] using List.find?_some h, fun j hj => ?_⟩
    obtain ⟨_, as, bs, hab, hns⟩ := List.find?_eq_some_iff_append.1 h
    have hmem : j ∈ as := by
      have hsorted : ((List.finRange 16).reverse).Pairwise (fun a b => b < a) := by decide
      rw [hab] at hsorted
      have hj' : j ∈ as ++ k :: bs := by rw [← hab]; simp
      simp only [List.mem_append, List.mem_cons] at hj'
      rcases hj' with h1 | h1 | h1
      · exact h1
      · exact absurd hj (by rw [h1]; exact Nat.lt_irrefl _)
      · have := (List.pairwise_cons.1 (List.pairwise_append.1 hsorted).2.1).1 j h1
        exact absurd hj (Nat.not_lt.2 (Nat.le_of_lt this))
    simpa [State.key] using hns j hmem

/-! ## The framebuffer -/

/-- Toggling one position toggles the bit at its linear index and no other. -/
theorem Frame.getLsbD_flip (f : Frame) (x y i : Nat) (h : pixelIndex x y < 2048) :
    (Frame.flip f x y).getLsbD i = (f.getLsbD i ^^ decide (pixelIndex x y = i)) := by
  simp only [Frame.flip, BitVec.getLsbD_xor, BitVec.getLsbD_twoPow]
  congr 1
  by_cases e : pixelIndex x y = i
  · subst e
    simp [h]
  · simp [e]

/-- On the grid a position is its linear index. -/
theorem pixelIndex_inj (x y x' y' : Nat) (h : x ≤ 63) (h' : x' ≤ 63) (e : pixelIndex x y = pixelIndex x' y') :
    x = x' ∧ y = y' := by
  unfold pixelIndex at e
  omega

theorem pixelIndex_lt (x y : Nat) (hx : x ≤ 63) (hy : y ≤ 31) : pixelIndex x y < 2048 := by
  unfold pixelIndex
  omega

/-- Which positions a row of a sprite lights (R122). -/
theorem mem_litRow (x0 y : Nat) (row : Byte) (p : Nat × Nat) :
    p ∈ litRow x0 y row ↔ ∃ c, c < 8 ∧ row.getLsbD (7 - c) = true ∧ p = (x0 + c, y) := by
  simp only [litRow, List.mem_map, List.mem_filter, List.mem_range, spriteBit]
  constructor
  · rintro ⟨c, ⟨hc, hb⟩, rfl⟩
    exact ⟨c, hc, hb, rfl⟩
  · rintro ⟨c, hc, hb, rfl⟩
    exact ⟨c, ⟨hc, hb⟩, rfl⟩

/-- Which positions a sprite lights (R122, R123). -/
theorem State.mem_litPixels (s : State) (x0 y0 n : Nat) (p : Nat × Nat) :
    p ∈ s.litPixels x0 y0 n ↔
      ∃ r c, r < n ∧ c < 8 ∧ (s.readByte (s.index.toNat + r)).getLsbD (7 - c) = true ∧ p = (x0 + c, y0 + r) := by
  simp only [State.litPixels, List.mem_flatMap, List.mem_range, mem_litRow, State.baseAddress]
  constructor
  · rintro ⟨r, hr, c, hc, hb, rfl⟩
    exact ⟨r, c, hr, hc, hb, rfl⟩
  · rintro ⟨r, c, hr, hc, hb, rfl⟩
    exact ⟨r, hr, c, hc, hb, rfl⟩

/-- A row's positions come in ascending columns, so none comes twice. -/
theorem litRow_ascending (x0 y : Nat) (row : Byte) :
    (litRow x0 y row).Pairwise fun p q => p.2 = q.2 ∧ p.1 < q.1 := by
  unfold litRow
  rw [List.pairwise_map]
  refine ((List.pairwise_lt_range (n := 8)).filter _).imp fun h => ⟨rfl, ?_⟩
  dsimp only
  omega

/-- A sprite's positions come in row-major order, so none comes twice (R121, R123). -/
theorem State.litPixels_rowMajor (s : State) (x0 y0 n : Nat) :
    (s.litPixels x0 y0 n).Pairwise fun p q => p.2 < q.2 ∨ (p.2 = q.2 ∧ p.1 < q.1) := by
  unfold State.litPixels
  rw [List.flatMap_def, List.pairwise_flatten]
  constructor
  · intro l hl
    obtain ⟨r, _, rfl⟩ := List.mem_map.1 hl
    exact (litRow_ascending _ _ _).imp fun h => .inr h
  · rw [List.pairwise_map]
    refine (List.pairwise_lt_range (n := n)).imp fun hlt p hp q hq => ?_
    obtain ⟨c, _, _, rfl⟩ := (mem_litRow _ _ _ _).1 hp
    obtain ⟨c', _, _, rfl⟩ := (mem_litRow _ _ _ _).1 hq
    exact .inl (by dsimp only; omega)

/-- Toggling distinct on-grid positions one after another toggles exactly the bits at their indices. -/
theorem Frame.getLsbD_drawn (lit : List (Nat × Nat)) (f : Frame) (x y : Nat) (hx : x ≤ 63) (hy : y ≤ 31)
    (hgrid : ∀ p ∈ lit, offGrid p = false)
    (horder : lit.Pairwise fun p q => p.2 < q.2 ∨ (p.2 = q.2 ∧ p.1 < q.1)) :
    Frame.pixel (Frame.drawn f lit) x y = (Frame.pixel f x y ^^ decide ((x, y) ∈ lit)) := by
  induction lit generalizing f with
  | nil => simp [Frame.drawn]
  | cons p lit ih =>
    obtain ⟨px, py⟩ := p
    have hp := hgrid (px, py) (by simp)
    simp only [offGrid, Bool.or_eq_false_iff, decide_eq_false_iff_not, Nat.not_lt] at hp
    have hstep : Frame.drawn f ((px, py) :: lit) = Frame.drawn (Frame.flip f px py) lit := rfl
    rw [hstep, ih _ (fun q hq => hgrid q (by simp [hq])) (List.pairwise_cons.1 horder).2]
    have hflip : Frame.pixel (Frame.flip f px py) x y = (Frame.pixel f x y ^^ decide ((x, y) = (px, py))) := by
      unfold Frame.pixel
      rw [Frame.getLsbD_flip _ _ _ _ (pixelIndex_lt _ _ hp.1 hp.2)]
      congr 1
      rw [decide_eq_decide]
      constructor
      · intro e
        obtain ⟨rfl, rfl⟩ := pixelIndex_inj px py x y hp.1 hx e
        rfl
      · rintro ⟨⟩
        rfl
    rw [hflip]
    by_cases e : (x, y) = (px, py)
    · have hnot : (x, y) ∉ lit := by
        intro hmem
        have := (List.pairwise_cons.1 horder).1 _ hmem
        simp only [Prod.mk.injEq] at e
        omega
      have hmem : (x, y) ∈ (px, py) :: lit := by simp [e]
      rw [decide_eq_true e, decide_eq_false hnot, decide_eq_true hmem]
      simp
    · by_cases hm : (x, y) ∈ lit
      · have hmem : (x, y) ∈ (px, py) :: lit := by simp [hm]
        rw [decide_eq_false e, decide_eq_true hm, decide_eq_true hmem]
        simp
      · have hmem : (x, y) ∉ (px, py) :: lit := by simp [hm, e]
        rw [decide_eq_false e, decide_eq_false hm, decide_eq_false hmem]
        simp

end Sys2Proof.Machine
end

