-- ==== Sys2Proof/Laws/Cycle.lean ====
section
/-! SUPPORT. Laws/Cycle.lean: what the fetch, the tick and the raising of a fault can do, how a frame is shown, and
the laws of toggling pixels. -/

namespace Sys2Proof.Machine

/-! ## The fetch and the tick -/

/-- Two bytes as a big-endian number (R32). -/
theorem wordOfBytes_toNat (hi lo : Byte) : (wordOfBytes hi lo).toNat = 256 * hi.toNat + lo.toNat := by
  simp only [wordOfBytes, BitVec.toNat_append]
  rw [Nat.shiftLeft_eq, Nat.mul_comm, ← Nat.two_pow_add_eq_or_of_lt lo.isLt]

/-- A fetch answers the lowest bad address exactly when `pc` is above 4094, else the word at `pc` (R71). -/
theorem State.fetchWord_cases (s : State) :
    (s.fetchWord = .outOfBounds (max s.pc.toNat 4096) ∧ 4094 < s.pc.toNat) ∨
      (s.fetchWord = .word (wordOfBytes (s.readByte s.pc.toNat) (s.readByte (s.pc.toNat + 1))) ∧
        s.pc.toNat ≤ 4094) := by
  unfold State.fetchWord
  rcases badAddress_cases s.pc.toNat 2 with ⟨h, _, h2⟩ | ⟨h, h2⟩ <;> rw [h]
  · exact .inl ⟨rfl, by omega⟩
  · exact .inr ⟨rfl, by omega⟩

/-- A timer goes down by one and never below zero (R73). -/
theorem countDown_toNat (b : Byte) : (countDown b).toNat = b.toNat - 1 := by
  unfold countDown
  split
  · rename_i h
    subst h
    rfl
  · rename_i h
    have := b.isLt
    have : b.toNat ≠ 0 := fun e => h (BitVec.eq_of_toNat_eq (by rw [e]; rfl))
    rw [BitVec.toNat_sub]
    have : (1 : Byte).toNat = 1 := rfl
    omega

/-- The tick beeps exactly on a sound timer of one (R73). -/
theorem beepOf_eq (st : Byte) : beepOf st = if st.toNat = 1 then [.beep] else [] := by
  have h : st = 1 ↔ st.toNat = 1 := BitVec.toNat_inj.symm
  simp only [beepOf, h]

/-- `finishCycle` either ticks or does nothing, by the cycle's result (R73). -/
theorem State.finishCycle_cases (s : State) :
    (s.finishCycle = s.tick ∧ s.result ≠ some .faulted) ∨ (s.finishCycle = s ∧ s.result ≠ some .normal) := by
  unfold State.finishCycle
  split
  · rename_i h
    exact .inl ⟨rfl, by rw [h]; decide⟩
  · rename_i h
    split
    · exact .inl ⟨rfl, by rw [h]; decide⟩
    · exact .inr ⟨rfl, by rw [h]; decide⟩
  · rename_i h _
    exact .inr ⟨rfl, fun e => h e⟩

theorem State.finishCycle_normal (s : State) (h : s.result = some .normal) : s.finishCycle = s.tick := by
  simp only [State.finishCycle, h]

theorem State.finishCycle_faulted (s : State) (h : s.result = some .faulted) : s.finishCycle = s := by
  simp only [State.finishCycle, h]

/-! ## Frames -/

/-- A frame from the fields: the registers outside the list, memory and the stack's entries as whole fields, and the rest. -/
theorem changesOnly_of (regs : List Reg) (parts : List Part) (s t : State) (hregs : ∀ r, r ∉ regs → t.getV r = s.getV r)
    (hparams : t.params = s.params) (hmem : .memory ∈ parts ∨ t.mem = s.mem)
    (hstack : .stack ∈ parts ∨ t.stack = s.stack)
    (hrest : ∀ p, p ∉ parts → p ≠ .memory → p ≠ .stack → p.same s t) : changesOnly regs parts s t := by
  refine ⟨hregs, fun p hp => ?_⟩
  by_cases hm : p = .memory
  · subst hm
    intro a
    simp only [State.readByte, hparams, hmem.resolve_left hp]
  · by_cases hs : p = .stack
    · subst hs
      intro k
      rw [hstack.resolve_left hp]
    · exact hrest p hp hm hs

/-- Raising a fault answers a next state in which it was raised (R148). -/
theorem raiseFault_raised (s : State) (f : Fault) : ∃ t, raiseFault s f = .next t ∧ raised f s t := by
  refine ⟨_, rfl, fun h => by simp [State.latch, h], rfl, ?_⟩
  refine changesOnly_of _ _ _ _ (fun _ _ => rfl) rfl (.inr rfl) (.inr rfl) fun p hp _ _ => ?_
  cases p <;> first | rfl | simp_all

/-! ## Flags and pixels -/

theorem flagByte_toNat (c : Bool) : (flagByte c).toNat = if c then 1 else 0 := by cases c <;> rfl

/-- Toggling a position twice changes nothing. -/
theorem Frame.flip_flip (f : Frame) (x y : Nat) : Frame.flip (Frame.flip f x y) x y = f := by
  simp only [Frame.flip, BitVec.xor_assoc, BitVec.xor_self, BitVec.xor_zero]

/-- The order of two toggles does not matter. -/
theorem Frame.flip_comm (f : Frame) (x y x' y' : Nat) :
    Frame.flip (Frame.flip f x y) x' y' = Frame.flip (Frame.flip f x' y') x y := by
  simp only [Frame.flip, BitVec.xor_assoc]
  rw [BitVec.xor_comm (BitVec.twoPow _ _)]

theorem Frame.drawn_cons (f : Frame) (p : Nat × Nat) (lit : List (Nat × Nat)) :
    Frame.drawn f (p :: lit) = Frame.drawn (Frame.flip f p.1 p.2) lit := rfl

theorem Frame.drawn_flip (f : Frame) (lit : List (Nat × Nat)) (x y : Nat) :
    Frame.drawn (Frame.flip f x y) lit = Frame.flip (Frame.drawn f lit) x y := by
  induction lit generalizing f with
  | nil => rfl
  | cons p lit ih => rw [Frame.drawn_cons, Frame.drawn_cons, Frame.flip_comm, ih]

/-- Toggling the same positions twice restores the frame. -/
theorem Frame.drawn_drawn (f : Frame) (lit : List (Nat × Nat)) : Frame.drawn (Frame.drawn f lit) lit = f := by
  induction lit generalizing f with
  | nil => rfl
  | cons p lit ih =>
    rw [Frame.drawn_cons, Frame.drawn_cons, Frame.drawn_flip, ih, Frame.flip_flip]

/-- A pixel of a frame after a toggle of another position on the grid. -/
theorem Frame.pixel_flip_ne (f : Frame) (x y x' y' : Nat) (hx : x ≤ 63) (hy : y ≤ 31) (hx' : x' ≤ 63)
    (h : ¬ (x = x' ∧ y = y')) : Frame.pixel (Frame.flip f x y) x' y' = Frame.pixel f x' y' := by
  have hne : pixelIndex x y ≠ pixelIndex x' y' := fun e => h (pixelIndex_inj x y x' y' hx hx' e)
  simp only [Frame.pixel, Frame.getLsbD_flip _ _ _ _ (pixelIndex_lt x y hx hy), decide_eq_false hne, Bool.xor_false]

/-- The positions a sprite covers, as the model lists them (R122). -/
theorem spriteCovers_iff (s : State) (x y : Reg) (n : Fin 16) (px py : Nat) :
    spriteCovers s x y n px py ↔ (px, py) ∈ s.litPixels (s.getV x).toNat (s.getV y).toNat n.val := by
  rw [State.mem_litPixels]
  constructor
  · rintro ⟨r, c, ⟨hr, hc, hb⟩, rfl, rfl⟩
    exact ⟨r, c, hr, hc, hb, rfl⟩
  · rintro ⟨r, c, hr, hc, hb, e⟩
    rw [Prod.mk.injEq] at e
    exact ⟨r, c, ⟨hr, hc, hb⟩, e.1, e.2⟩

/-- A sprite is on the grid when no listed position is off it (R123). -/
theorem spriteOnGrid_iff (s : State) (x y : Reg) (n : Fin 16) :
    spriteOnGrid s x y n ↔ ∀ p ∈ s.litPixels (s.getV x).toNat (s.getV y).toNat n.val, offGrid p = false := by
  simp only [spriteOnGrid, spriteCovers_iff, offGrid, Bool.or_eq_false_iff, decide_eq_false_iff_not, Nat.not_lt]
  exact ⟨fun h p hp => h p.1 p.2 hp, fun h px py hp => h (px, py) hp⟩

end Sys2Proof.Machine
end

