-- ==== Sys2Proof/Laws/Decode.lean ====
section
/-! SUPPORT. Laws/Decode.lean: the three masks of the opcode map and the fields of the formats as arithmetic, so that a
proof about decoding is arithmetic on the word's number. -/

namespace Sys2Proof

theorem and_top_eq (op : Word) : op &&& 0xF000#16 = (op >>> 12) <<< 12 := by
  have hm : ∀ i : Fin 16, (0xF000#16).getLsbD i.val = decide (12 ≤ i.val) := by decide
  apply BitVec.eq_of_getLsbD_eq
  intro i hi
  have := hm ⟨i, hi⟩
  simp only [BitVec.getLsbD_and, BitVec.getLsbD_shiftLeft, BitVec.getLsbD_ushiftRight, this, hi]
  by_cases h : i < 12
  · simp [h, Nat.not_le.2 h]
  · have h' : 12 ≤ i := Nat.not_lt.1 h
    simp [h', Nat.not_lt.2 h', Nat.add_sub_cancel' h']

theorem and_low_eq (op : Word) : op &&& 0x000F#16 = BitVec.ofNat 16 (op.toNat % 16) := by
  apply BitVec.eq_of_toNat_eq
  have h : op.toNat < 65536 := op.isLt
  rw [BitVec.toNat_and, show (0x000F#16).toNat = 2 ^ 4 - 1 from rfl, Nat.and_two_pow_sub_one_eq_mod, BitVec.toNat_ofNat]
  omega

theorem and_byte_eq (op : Word) : op &&& 0x00FF#16 = BitVec.ofNat 16 (op.toNat % 256) := by
  apply BitVec.eq_of_toNat_eq
  have h : op.toNat < 65536 := op.isLt
  rw [BitVec.toNat_and, show (0x00FF#16).toNat = 2 ^ 8 - 1 from rfl, Nat.and_two_pow_sub_one_eq_mod, BitVec.toNat_ofNat]
  omega

/-- The mask 0xF000 keeps the top nibble. -/
theorem toNat_and_top (op : Word) : (op &&& 0xF000#16).toNat = 4096 * (op.toNat / 4096) := by
  have h : op.toNat < 65536 := op.isLt
  rw [and_top_eq, BitVec.toNat_shiftLeft, BitVec.toNat_ushiftRight, Nat.shiftRight_eq_div_pow, Nat.shiftLeft_eq]
  omega

theorem and_split_toNat (op m : Word) (k : Nat) (hk : k ≤ 12)
    (hm : m = 0xF000#16 ||| BitVec.ofNat 16 (2 ^ k - 1)) :
    (op &&& m).toNat = 4096 * (op.toNat / 4096) + op.toNat % 2 ^ k := by
  have h : op.toNat < 65536 := op.isLt
  have hp : 2 ^ k ≤ 2 ^ 12 := Nat.pow_le_pow_right (by omega) hk
  have hd : op &&& m = (op &&& 0xF000#16) ||| (op &&& BitVec.ofNat 16 (2 ^ k - 1)) := by
    rw [hm]
    apply BitVec.eq_of_getLsbD_eq
    intro i _
    simp [Bool.and_or_distrib_left]
  have hl : (op &&& BitVec.ofNat 16 (2 ^ k - 1)).toNat = op.toNat % 2 ^ k := by
    rw [BitVec.toNat_and, BitVec.toNat_ofNat, Nat.mod_eq_of_lt (by omega), Nat.and_two_pow_sub_one_eq_mod]
  have hlt : op.toNat % 2 ^ k < 2 ^ 12 := Nat.lt_of_lt_of_le (Nat.mod_lt _ (Nat.two_pow_pos k)) hp
  rw [hd, BitVec.toNat_or, hl, toNat_and_top, show 4096 * (op.toNat / 4096) = 2 ^ 12 * (op.toNat / 4096) from rfl,
    ← Nat.two_pow_add_eq_or_of_lt hlt]

/-- The mask 0xF00F keeps the top and the low nibble. -/
theorem toNat_and_top_low (op : Word) :
    (op &&& 0xF00F#16).toNat = 4096 * (op.toNat / 4096) + op.toNat % 16 :=
  and_split_toNat op _ 4 (by omega) (by decide)

/-- The mask 0xF0FF keeps the top nibble and the low byte. -/
theorem toNat_and_top_byte (op : Word) :
    (op &&& 0xF0FF#16).toNat = 4096 * (op.toNat / 4096) + op.toNat % 256 :=
  and_split_toNat op _ 8 (by omega) (by decide)

/-- The mask 0xFFFF keeps the word. -/
theorem toNat_and_all (op : Word) : (op &&& 0xFFFF#16).toNat = op.toNat := by
  have : op &&& 0xFFFF#16 = op := by
    apply BitVec.eq_of_getLsbD_eq
    intro i hi
    have hm : ∀ j : Fin 16, (0xFFFF#16).getLsbD j.val = true := by decide
    simp [hm ⟨i, hi⟩]
  rw [this]

/-- A row accepts a word when the masked numbers agree. -/
theorem Row.accepts_eq (r : Row) (op : Word) :
    r.accepts op = decide ((op &&& r.mask).toNat = r.pattern.toNat) := by
  rw [Bool.eq_iff_iff, decide_eq_true_iff, BitVec.toNat_inj]
  exact beq_iff_eq

/-- Mask 0xF000: the row is one top nibble. -/
theorem Row.accepts_top (s : String) (p : Word) (b : Word → Instr) (op : Word) (t : Nat)
    (hp : p.toNat = 4096 * t) : (Row.mk s 0xF000#16 p b).accepts op = decide (op.toNat / 4096 = t) := by
  rw [Row.accepts_eq, toNat_and_top, hp, decide_eq_decide]
  omega

/-- Mask 0xF00F: the row is one top nibble and one low nibble. -/
theorem Row.accepts_top_low (s : String) (p : Word) (b : Word → Instr) (op : Word) (t l : Nat)
    (hp : p.toNat = 4096 * t + l) (hl : l < 16) :
    (Row.mk s 0xF00F#16 p b).accepts op = decide (op.toNat / 4096 = t ∧ op.toNat % 16 = l) := by
  rw [Row.accepts_eq, toNat_and_top_low, hp, decide_eq_decide]
  omega

/-- Mask 0xF0FF: the row is one top nibble and one low byte. -/
theorem Row.accepts_top_byte (s : String) (p : Word) (b : Word → Instr) (op : Word) (t l : Nat)
    (hp : p.toNat = 4096 * t + l) (hl : l < 256) :
    (Row.mk s 0xF0FF#16 p b).accepts op = decide (op.toNat / 4096 = t ∧ op.toNat % 256 = l) := by
  rw [Row.accepts_eq, toNat_and_top_byte, hp, decide_eq_decide]
  omega

/-- Mask 0xFFFF: the row is one word. -/
theorem Row.accepts_all (s : String) (p : Word) (b : Word → Instr) (op : Word) :
    (Row.mk s 0xFFFF#16 p b).accepts op = decide (op.toNat = p.toNat) := by
  rw [Row.accepts_eq, toNat_and_all]

/-- The first row decides a word, or the rest of the table does. -/
theorem find_row (op : Word) (r : Row) (rs : List Row) (P : Prop) [Decidable P] (res : Decoded Instr)
    (hP : r.accepts op = decide P)
    (hres : (match rs.find? (fun r => r.accepts op) with
      | some r => Decoded.ok (r.build op)
      | none => .error (.unknownOpcode op)) = res) :
    (match (r :: rs).find? (fun r => r.accepts op) with
      | some r => Decoded.ok (r.build op)
      | none => .error (.unknownOpcode op)) = if P then .ok (r.build op) else res := by
  rw [List.find?_cons, hP]
  by_cases h : P <;> simp [h, hres]

/-- The decoder as a chain of tests on the word's number `n`, its top nibble `d`, low nibble `l` and low byte `b`. -/
theorem decode_eq (op : Word) (n d l b : Nat) (hn : op.toNat = n) (hd : n / 4096 = d) (hl : n % 16 = l)
    (hb : n % 256 = b) :
    decode op =
      if n = 0xE0 then .ok .cls
      else if n = 0xEE then .ok .ret
      else if d = 1 then .ok (.jp (fieldNNN op))
      else if d = 2 then .ok (.call (fieldNNN op))
      else if d = 3 then .ok (.seImm (fieldX op) (fieldNN op))
      else if d = 4 then .ok (.sneImm (fieldX op) (fieldNN op))
      else if d = 5 ∧ l = 0 then .ok (.seReg (fieldX op) (fieldY op))
      else if d = 6 then .ok (.ldImm (fieldX op) (fieldNN op))
      else if d = 7 then .ok (.addImm (fieldX op) (fieldNN op))
      else if d = 8 ∧ l = 0 then .ok (.ldReg (fieldX op) (fieldY op))
      else if d = 8 ∧ l = 1 then .ok (.orReg (fieldX op) (fieldY op))
      else if d = 8 ∧ l = 2 then .ok (.andReg (fieldX op) (fieldY op))
      else if d = 8 ∧ l = 3 then .ok (.xorReg (fieldX op) (fieldY op))
      else if d = 8 ∧ l = 4 then .ok (.addReg (fieldX op) (fieldY op))
      else if d = 8 ∧ l = 5 then .ok (.subReg (fieldX op) (fieldY op))
      else if d = 8 ∧ l = 6 then .ok (.shr (fieldX op) (fieldY op))
      else if d = 8 ∧ l = 7 then .ok (.subnReg (fieldX op) (fieldY op))
      else if d = 8 ∧ l = 14 then .ok (.shl (fieldX op) (fieldY op))
      else if d = 9 ∧ l = 0 then .ok (.sneReg (fieldX op) (fieldY op))
      else if d = 10 then .ok (.ldIndex (fieldNNN op))
      else if d = 11 then .ok (.jpV0 (fieldNNN op))
      else if d = 12 then .ok (.rnd (fieldX op) (fieldNN op))
      else if d = 13 then .ok (.drw (fieldX op) (fieldY op) (fieldN op))
      else if d = 14 ∧ b = 0x9E then .ok (.skp (fieldX op))
      else if d = 14 ∧ b = 0xA1 then .ok (.sknp (fieldX op))
      else if d = 15 ∧ b = 0x07 then .ok (.ldVxDt (fieldX op))
      else if d = 15 ∧ b = 0x0A then .ok (.ldKey (fieldX op))
      else if d = 15 ∧ b = 0x15 then .ok (.ldDtVx (fieldX op))
      else if d = 15 ∧ b = 0x18 then .ok (.ldStVx (fieldX op))
      else if d = 15 ∧ b = 0x1E then .ok (.addIndex (fieldX op))
      else if d = 15 ∧ b = 0x29 then .ok (.ldFont (fieldX op))
      else if d = 15 ∧ b = 0x33 then .ok (.ldBcd (fieldX op))
      else if d = 15 ∧ b = 0x55 then .ok (.storeRegs (fieldX op))
      else if d = 15 ∧ b = 0x65 then .ok (.loadRegs (fieldX op))
      else .error (.unknownOpcode op) := by
  subst hn hd hl hb
  unfold decode rows
  repeat first
    | exact rfl
    | apply find_row _ _ _ _ _ (Row.accepts_all _ _ _ _)
    | apply find_row _ _ _ _ _ (Row.accepts_top _ _ _ _ _ rfl)
    | apply find_row _ _ _ _ _ (Row.accepts_top_low _ _ _ _ _ _ rfl (by decide))
    | apply find_row _ _ _ _ _ (Row.accepts_top_byte _ _ _ _ _ _ rfl (by decide))

/-! ## The fields of a word, as numbers (R51) -/

theorem fieldX_val (op : Word) : (fieldX op).val = op.toNat / 256 % 16 := by
  simp [fieldX, Nat.shiftRight_eq_div_pow]

theorem fieldY_val (op : Word) : (fieldY op).val = op.toNat / 16 % 16 := by
  simp [fieldY, Nat.shiftRight_eq_div_pow]

theorem fieldN_val (op : Word) : (fieldN op).val = op.toNat % 16 := by
  simp [fieldN]

theorem fieldNN_toNat (op : Word) : (fieldNN op).toNat = op.toNat % 256 := by
  simp [fieldNN, BitVec.extractLsb'_toNat]

theorem fieldNNN_toNat (op : Word) : (fieldNNN op).toNat = op.toNat % 4096 := by
  simp [fieldNNN, BitVec.extractLsb'_toNat]

/-! ## The numbers of the formats (R53) -/

theorem wordNNN_toNat (t : Nat) (nnn : Addr12) (ht : t < 16) : (wordNNN t nnn).toNat = 4096 * t + nnn.toNat := by
  have := nnn.isLt
  simp [wordNNN]
  omega

theorem wordXNN_toNat (t : Nat) (x : Reg) (nn : Byte) (ht : t < 16) :
    (wordXNN t x nn).toNat = 4096 * t + 256 * x.val + nn.toNat := by
  have := nn.isLt
  have := x.isLt
  simp [wordXNN]
  omega

theorem wordXYN_toNat (t : Nat) (x y : Reg) (n : Fin 16) (ht : t < 16) :
    (wordXYN t x y n).toNat = 4096 * t + 256 * x.val + 16 * y.val + n.val := by
  have := x.isLt
  have := y.isLt
  have := n.isLt
  simp [wordXYN]
  omega

theorem wordX_toNat (t : Nat) (x : Reg) (hh : Nat) (ht : t < 16) (hhh : hh < 256) :
    (wordX t x hh).toNat = 4096 * t + 256 * x.val + hh := by
  have := x.isLt
  simp [wordX]
  omega

/-! ## The fields of the formats: each operand comes back (R51, R53) -/

theorem fieldNNN_wordNNN (t : Nat) (nnn : Addr12) (ht : t < 16) : fieldNNN (wordNNN t nnn) = nnn := by
  apply BitVec.eq_of_toNat_eq
  have := nnn.isLt
  rw [fieldNNN_toNat, wordNNN_toNat t nnn ht]
  omega

theorem fieldX_wordXNN (t : Nat) (x : Reg) (nn : Byte) (ht : t < 16) : fieldX (wordXNN t x nn) = x := by
  apply Fin.ext
  have := nn.isLt
  rw [fieldX_val, wordXNN_toNat t x nn ht]
  omega

theorem fieldNN_wordXNN (t : Nat) (x : Reg) (nn : Byte) (ht : t < 16) : fieldNN (wordXNN t x nn) = nn := by
  apply BitVec.eq_of_toNat_eq
  have := nn.isLt
  rw [fieldNN_toNat, wordXNN_toNat t x nn ht]
  omega

theorem fieldX_wordXYN (t : Nat) (x y : Reg) (n : Fin 16) (ht : t < 16) : fieldX (wordXYN t x y n) = x := by
  apply Fin.ext
  have := n.isLt
  rw [fieldX_val, wordXYN_toNat t x y n ht]
  omega

theorem fieldY_wordXYN (t : Nat) (x y : Reg) (n : Fin 16) (ht : t < 16) : fieldY (wordXYN t x y n) = y := by
  apply Fin.ext
  have := n.isLt
  rw [fieldY_val, wordXYN_toNat t x y n ht]
  omega

theorem fieldN_wordXYN (t : Nat) (x y : Reg) (n : Fin 16) (ht : t < 16) : fieldN (wordXYN t x y n) = n := by
  apply Fin.ext
  have := n.isLt
  rw [fieldN_val, wordXYN_toNat t x y n ht]
  omega

theorem fieldX_wordX (t : Nat) (x : Reg) (hh : Nat) (ht : t < 16) (hhh : hh < 256) : fieldX (wordX t x hh) = x := by
  apply Fin.ext
  rw [fieldX_val, wordX_toNat t x hh ht hhh]
  omega

end Sys2Proof
end

