-- ==== Sys2Proof/Laws/PerInstr.lean ====
section
/-! SUPPORT. Laws/PerInstr.lean: the family KnownWord, one lemma per instruction: the word of every instruction is
outside the list of unknown encodings of 30_encoding.md R56. -/

namespace Sys2Proof.Laws.KnownWord

/-- The instruction's word is not an unknown encoding (R56). -/
def Statement (i : Instr) : Prop := knownWord (encode i) = true

/-- A word in a group whose every word decodes. -/
theorem of_open_group (w : Word) (t rest : Nat) (hw : w.toNat = 4096 * t + rest) (hrest : rest < 4096)
    (h : ∀ n l b, knownParts n t l b = true) : knownWord w = true := by
  have hd : w.toNat / 4096 = t := by omega
  rw [knownWord, hd]
  exact h _ _ _

/-- A word of format XYN: the group's check sees the low nibble. -/
theorem of_wordXYN (t : Nat) (x y : Reg) (n : Fin 16) (ht : t < 16) (h : ∀ m b, knownParts m t n.val b = true) :
    knownWord (wordXYN t x y n) = true := by
  have hd : (wordXYN t x y n).toNat / 4096 = t := by
    rw [wordXYN_toNat t x y n ht]
    omega
  have hl : (wordXYN t x y n).toNat % 16 = n.val := by
    rw [wordXYN_toNat t x y n ht]
    omega
  rw [knownWord, hd, hl]
  exact h _ _

/-- A word of format X: the group's check sees the low byte. -/
theorem of_wordX (t : Nat) (x : Reg) (hh : Nat) (ht : t < 16) (hhh : hh < 256)
    (h : ∀ m l, knownParts m t l hh = true) : knownWord (wordX t x hh) = true := by
  have hd : (wordX t x hh).toNat / 4096 = t := by
    rw [wordX_toNat t x hh ht hhh]
    omega
  have hb : (wordX t x hh).toNat % 256 = hh := by
    rw [wordX_toNat t x hh ht hhh]
    omega
  rw [knownWord, hd, hb]
  exact h _ _

/-- A word of format NNN. -/
theorem of_wordNNN (t : Nat) (nnn : Addr12) (ht : t < 16) (h : ∀ m l b, knownParts m t l b = true) :
    knownWord (wordNNN t nnn) = true :=
  of_open_group _ t nnn.toNat (wordNNN_toNat t nnn ht) nnn.isLt h

/-- A word of format XNN. -/
theorem of_wordXNN (t : Nat) (x : Reg) (nn : Byte) (ht : t < 16) (h : ∀ m l b, knownParts m t l b = true) :
    knownWord (wordXNN t x nn) = true :=
  of_open_group _ t (256 * x.val + nn.toNat) (by rw [wordXNN_toNat t x nn ht]; omega)
    (by have := nn.isLt; omega) h

theorem cls : Statement .cls := by
  show knownWord 0x00E0 = true
  decide

theorem ret : Statement .ret := by
  show knownWord 0x00EE = true
  decide

theorem jp (nnn : Addr12) : Statement (.jp nnn) :=
  of_wordNNN 0x1 nnn (by omega) (fun _ _ _ => rfl)

theorem call (nnn : Addr12) : Statement (.call nnn) :=
  of_wordNNN 0x2 nnn (by omega) (fun _ _ _ => rfl)

theorem seImm (x : Reg) (nn : Byte) : Statement (.seImm x nn) :=
  of_wordXNN 0x3 x nn (by omega) (fun _ _ _ => rfl)

theorem sneImm (x : Reg) (nn : Byte) : Statement (.sneImm x nn) :=
  of_wordXNN 0x4 x nn (by omega) (fun _ _ _ => rfl)

theorem seReg (x : Reg) (y : Reg) : Statement (.seReg x y) :=
  of_wordXYN 0x5 x y 0x0 (by omega) (fun _ _ => rfl)

theorem ldImm (x : Reg) (nn : Byte) : Statement (.ldImm x nn) :=
  of_wordXNN 0x6 x nn (by omega) (fun _ _ _ => rfl)

theorem addImm (x : Reg) (nn : Byte) : Statement (.addImm x nn) :=
  of_wordXNN 0x7 x nn (by omega) (fun _ _ _ => rfl)

theorem ldReg (x : Reg) (y : Reg) : Statement (.ldReg x y) :=
  of_wordXYN 0x8 x y 0x0 (by omega) (fun _ _ => rfl)

theorem orReg (x : Reg) (y : Reg) : Statement (.orReg x y) :=
  of_wordXYN 0x8 x y 0x1 (by omega) (fun _ _ => rfl)

theorem andReg (x : Reg) (y : Reg) : Statement (.andReg x y) :=
  of_wordXYN 0x8 x y 0x2 (by omega) (fun _ _ => rfl)

theorem xorReg (x : Reg) (y : Reg) : Statement (.xorReg x y) :=
  of_wordXYN 0x8 x y 0x3 (by omega) (fun _ _ => rfl)

theorem addReg (x : Reg) (y : Reg) : Statement (.addReg x y) :=
  of_wordXYN 0x8 x y 0x4 (by omega) (fun _ _ => rfl)

theorem subReg (x : Reg) (y : Reg) : Statement (.subReg x y) :=
  of_wordXYN 0x8 x y 0x5 (by omega) (fun _ _ => rfl)

theorem shr (x : Reg) (y : Reg) : Statement (.shr x y) :=
  of_wordXYN 0x8 x y 0x6 (by omega) (fun _ _ => rfl)

theorem subnReg (x : Reg) (y : Reg) : Statement (.subnReg x y) :=
  of_wordXYN 0x8 x y 0x7 (by omega) (fun _ _ => rfl)

theorem shl (x : Reg) (y : Reg) : Statement (.shl x y) :=
  of_wordXYN 0x8 x y 0xe (by omega) (fun _ _ => rfl)

theorem sneReg (x : Reg) (y : Reg) : Statement (.sneReg x y) :=
  of_wordXYN 0x9 x y 0x0 (by omega) (fun _ _ => rfl)

theorem ldIndex (nnn : Addr12) : Statement (.ldIndex nnn) :=
  of_wordNNN 0xa nnn (by omega) (fun _ _ _ => rfl)

theorem jpV0 (nnn : Addr12) : Statement (.jpV0 nnn) :=
  of_wordNNN 0xb nnn (by omega) (fun _ _ _ => rfl)

theorem rnd (x : Reg) (nn : Byte) : Statement (.rnd x nn) :=
  of_wordXNN 0xc x nn (by omega) (fun _ _ _ => rfl)

theorem drw (x : Reg) (y : Reg) (n : Fin 16) : Statement (.drw x y n) :=
  of_wordXYN 0xd x y n (by omega) (fun _ _ => rfl)

theorem skp (x : Reg) : Statement (.skp x) :=
  of_wordX 0xe x 0x9e (by omega) (by omega) (fun _ _ => rfl)

theorem sknp (x : Reg) : Statement (.sknp x) :=
  of_wordX 0xe x 0xa1 (by omega) (by omega) (fun _ _ => rfl)

theorem ldVxDt (x : Reg) : Statement (.ldVxDt x) :=
  of_wordX 0xf x 0x7 (by omega) (by omega) (fun _ _ => rfl)

theorem ldKey (x : Reg) : Statement (.ldKey x) :=
  of_wordX 0xf x 0xa (by omega) (by omega) (fun _ _ => rfl)

theorem ldDtVx (x : Reg) : Statement (.ldDtVx x) :=
  of_wordX 0xf x 0x15 (by omega) (by omega) (fun _ _ => rfl)

theorem ldStVx (x : Reg) : Statement (.ldStVx x) :=
  of_wordX 0xf x 0x18 (by omega) (by omega) (fun _ _ => rfl)

theorem addIndex (x : Reg) : Statement (.addIndex x) :=
  of_wordX 0xf x 0x1e (by omega) (by omega) (fun _ _ => rfl)

theorem ldFont (x : Reg) : Statement (.ldFont x) :=
  of_wordX 0xf x 0x29 (by omega) (by omega) (fun _ _ => rfl)

theorem ldBcd (x : Reg) : Statement (.ldBcd x) :=
  of_wordX 0xf x 0x33 (by omega) (by omega) (fun _ _ => rfl)

theorem storeRegs (x : Reg) : Statement (.storeRegs x) :=
  of_wordX 0xf x 0x55 (by omega) (by omega) (fun _ _ => rfl)

theorem loadRegs (x : Reg) : Statement (.loadRegs x) :=
  of_wordX 0xf x 0x65 (by omega) (by omega) (fun _ _ => rfl)

end Sys2Proof.Laws.KnownWord
end

