-- ==== Sys2Proof/Tests/Slice0.lean ====
section
/-! SUPPORT. Tests/Slice0.lean: the model against the spec: one ill-formed word per check of WellFormed, one word per
constructor written out from its encoding, steps against the vectors of 95_test_vectors.md (each names its vector),
and, for every statement with hypotheses, a state and operands that meet them. -/

namespace Sys2Proof.Tests

open Sys2Proof.Machine

/-- A check of the state a result moves to; false where there is none. -/
def after (r : Result) (p : State → Bool) : Bool :=
  match r with
  | .next t => p t
  | _ => false

/-- One cycle from a state, with a word placed where it fetches. -/
def cycle (s : State) (w : Nat) : Result := step (s.withFetchWord 16 w)

/-- The cycle faulted with this record and left the program counter and the events alone. -/
def faultedWith (s : State) (w : Nat) (f : Fault) : Bool :=
  after (cycle s w) fun t => t.fault == some f && t.result == some .faulted && t.pc == s.pc && t.events == s.events

/-! ## WellFormed: a word each check refuses, beside the nearest word it lets through (R56, T1.6 to T1.10) -/

theorem test_wf_group0 : knownWord 0x00E1 = false ∧ knownWord 0x01E0 = false ∧ knownWord 0x00E0 = true := by decide
theorem test_wf_group5 : knownWord 0x5231 = false ∧ knownWord 0x5230 = true := by decide
theorem test_wf_group8 : knownWord 0x8008 = false ∧ knownWord 0x800F = false ∧ knownWord 0x800E = true := by decide
theorem test_wf_group9 : knownWord 0x9231 = false ∧ knownWord 0x9230 = true := by decide
theorem test_wf_groupE : knownWord 0xE59F = false ∧ knownWord 0xE5A0 = false ∧ knownWord 0xE59E = true := by decide
theorem test_wf_groupF :
    knownWord 0xF10B = false ∧ knownWord 0xF030 = false ∧ knownWord 0xF075 = false ∧ knownWord 0xF10A = true := by
  decide

/-! ## Decode: one word per constructor, from the formats of R53 and the rows of R55 -/

theorem test_decode_cls : decode 0x00E0 = .ok (.cls) := by decide
theorem test_decode_ret : decode 0x00EE = .ok (.ret) := by decide
theorem test_decode_jp : decode 0x1234 = .ok (.jp 0x234) := by decide
theorem test_decode_call : decode 0x2210 = .ok (.call 0x210) := by decide
theorem test_decode_seImm : decode 0x3100 = .ok (.seImm 1 0x00) := by decide
theorem test_decode_sneImm : decode 0x4008 = .ok (.sneImm 0 0x08) := by decide
theorem test_decode_seReg : decode 0x5230 = .ok (.seReg 2 3) := by decide
theorem test_decode_ldImm : decode 0x6A2F = .ok (.ldImm 10 0x2F) := by decide
theorem test_decode_addImm : decode 0x71FF = .ok (.addImm 1 0xFF) := by decide
theorem test_decode_ldReg : decode 0x8230 = .ok (.ldReg 2 3) := by decide
theorem test_decode_orReg : decode 0x8011 = .ok (.orReg 0 1) := by decide
theorem test_decode_andReg : decode 0x8AB2 = .ok (.andReg 10 11) := by decide
theorem test_decode_xorReg : decode 0x8123 = .ok (.xorReg 1 2) := by decide
theorem test_decode_addReg : decode 0x8F14 = .ok (.addReg 15 1) := by decide
theorem test_decode_subReg : decode 0x80F5 = .ok (.subReg 0 15) := by decide
theorem test_decode_shr : decode 0x84A6 = .ok (.shr 4 10) := by decide
theorem test_decode_subnReg : decode 0x8127 = .ok (.subnReg 1 2) := by decide
theorem test_decode_shl : decode 0x840E = .ok (.shl 4 0) := by decide
theorem test_decode_sneReg : decode 0x9230 = .ok (.sneReg 2 3) := by decide
theorem test_decode_ldIndex : decode 0xA20E = .ok (.ldIndex 0x20E) := by decide
theorem test_decode_jpV0 : decode 0xBFFF = .ok (.jpV0 0xFFF) := by decide
theorem test_decode_rnd : decode 0xC30F = .ok (.rnd 3 0x0F) := by decide
theorem test_decode_drw : decode 0xD125 = .ok (.drw 1 2 5) := by decide
theorem test_decode_skp : decode 0xE59E = .ok (.skp 5) := by decide
theorem test_decode_sknp : decode 0xE5A1 = .ok (.sknp 5) := by decide
theorem test_decode_ldVxDt : decode 0xF307 = .ok (.ldVxDt 3) := by decide
theorem test_decode_ldKey : decode 0xF10A = .ok (.ldKey 1) := by decide
theorem test_decode_ldDtVx : decode 0xF015 = .ok (.ldDtVx 0) := by decide
theorem test_decode_ldStVx : decode 0xF018 = .ok (.ldStVx 0) := by decide
theorem test_decode_addIndex : decode 0xFF1E = .ok (.addIndex 15) := by decide
theorem test_decode_ldFont : decode 0xF129 = .ok (.ldFont 1) := by decide
theorem test_decode_ldBcd : decode 0xF033 = .ok (.ldBcd 0) := by decide
theorem test_decode_storeRegs : decode 0xF255 = .ok (.storeRegs 2) := by decide
theorem test_decode_loadRegs : decode 0xF265 = .ok (.loadRegs 2) := by decide

theorem test_decode_unknown :
    decode 0x0001 = .error (.unknownOpcode 0x0001) ∧ decode 0xFFFF = .error (.unknownOpcode 0xFFFF) := by
  decide
theorem test_decode_bytes :
    decodeBytes [0x22, 0x10, 0x60] = .ok (.call 0x210, [0x60]) ∧ decodeBytes [0x22] = .error .truncated := by
  decide
theorem test_decodeTableWord :
    decodeTableWord 16 0xD125 = some (.drw 1 2 5) ∧ decodeTableWord 16 0x0000 = none := by decide

/-! ## Steps, against the vectors of 95_test_vectors.md -/

/-- T7.18. -/
theorem test_cls :
    after (cycle ((State.reset.setFb (BitVec.allOnes 2048)).setV 15 1) 0x00E0)
      (fun t => t.fb == 0 && t.getV 15 == 1 && t.events == [.frameReady 0]) = true := by decide +kernel

/-- T2.1. -/
theorem test_ret :
    after (cycle (({ State.reset with sp := 1, stack := State.reset.stack.set 0 0x204 } : State).setPc 0x212) 0x00EE)
      (fun t => t.sp == 0 && t.pc == 0x206 && t.stack[0] == 0x204) = true := by decide

/-- T2.2. -/
theorem test_ret_empty : faultedWith (State.reset.setPc 0x212) 0x00EE (.stackUnderflow 0x212) = true := by decide

/-- T2.3. -/
theorem test_jp :
    after (cycle (State.reset.setPc 0x20A) 0x1204)
      (fun t => t.pc == 0x204) = true := by decide

/-- T2.5. -/
theorem test_call :
    after (cycle (State.reset.setPc 0x204) 0x2210)
      (fun t => t.stack[0] == 0x204 && t.sp == 1 && t.pc == 0x210) = true := by decide

/-- T2.6. -/
theorem test_call_full :
    faultedWith (({ State.reset with sp := 16 } : State).setPc 0x204) 0x2210 (.stackOverflow 0x204) = true := by
  decide

/-- T2.7. -/
theorem test_seImm :
    after (cycle (State.reset.setPc 0x208) 0x3100)
      (fun t => t.pc == 0x20C) = true := by decide

/-- T2.7. -/
theorem test_seImm_not :
    after (cycle ((State.reset.setPc 0x208).setV 1 4) 0x3100)
      (fun t => t.pc == 0x20A) = true := by decide

/-- T2.8. -/
theorem test_sneImm :
    after (cycle ((State.reset.setPc 0x300).setV 0 7) 0x4008)
      (fun t => t.pc == 0x304) = true := by decide

/-- T2.8. -/
theorem test_sneImm_not :
    after (cycle ((State.reset.setPc 0x300).setV 0 7) 0x4007)
      (fun t => t.pc == 0x302) = true := by decide

/-- T2.9. -/
theorem test_seReg :
    after (cycle (((State.reset.setPc 0x220).setV 2 9).setV 3 9) 0x5230)
      (fun t => t.pc == 0x224) = true := by decide

/-- T2.9. -/
theorem test_seReg_not :
    after (cycle (((State.reset.setPc 0x220).setV 2 9).setV 3 8) 0x5230)
      (fun t => t.pc == 0x222) = true := by decide

/-- S1. -/
theorem test_ldImm :
    after (cycle State.reset 0x6A2F)
      (fun t => t.getV 10 == 0x2F && t.pc == 0x202) = true := by decide

/-- T1.2. -/
theorem test_ldImm_top :
    after (cycle (State.reset.setPc 0xFFE) 0x6A2F)
      (fun t => t.getV 10 == 0x2F && t.pc == 0x1000) = true := by decide

/-- T3.1. -/
theorem test_addImm :
    after (cycle (State.reset.setV 15 1) 0x71FF)
      (fun t => t.getV 1 == 0xFF && t.getV 15 == 1) = true := by decide

/-- T3.3. -/
theorem test_addImm_vf :
    after (cycle State.reset 0x7FFF)
      (fun t => t.getV 15 == 0xFF) = true := by decide

/-- T3.4. -/
theorem test_ldReg :
    after (cycle (State.reset.setV 3 0x7E) 0x8230)
      (fun t => t.getV 2 == 0x7E && t.getV 3 == 0x7E) = true := by decide

/-- T3.5. -/
theorem test_orReg :
    after (cycle (((State.reset.setV 0 0xF0).setV 1 0x0F).setV 15 1) 0x8011)
      (fun t => t.getV 0 == 0xFF && t.getV 15 == 1) = true := by decide

/-- T3.6. -/
theorem test_andReg :
    after (cycle (((State.reset.setV 0 0xF3).setV 1 0x3C).setV 15 1) 0x8012)
      (fun t => t.getV 0 == 0x30 && t.getV 15 == 1) = true := by decide

/-- T3.7. -/
theorem test_xorReg :
    after (cycle (((State.reset.setV 0 0xFF).setV 1 0x0F).setV 15 1) 0x8013)
      (fun t => t.getV 0 == 0xF0 && t.getV 15 == 1) = true := by decide

/-- S2. -/
theorem test_addReg :
    after (cycle ((State.reset.setV 0 250).setV 1 10) 0x8014)
      (fun t => t.getV 0 == 4 && t.getV 1 == 10 && t.getV 15 == 1 && t.pc == 0x202) = true := by decide

/-- T4.6. -/
theorem test_addReg_vf_source :
    after (cycle ((State.reset.setV 0 250).setV 15 10) 0x80F4)
      (fun t => t.getV 15 == 1 && t.getV 0 == 251) = true := by decide

/-- S3. -/
theorem test_subReg :
    after (cycle ((State.reset.setV 0 3).setV 1 5) 0x8015)
      (fun t => t.getV 0 == 254 && t.getV 15 == 0) = true := by decide

/-- T4.12. -/
theorem test_subReg_vf_target :
    after (cycle ((State.reset.setV 15 2).setV 1 4) 0x8F15)
      (fun t => t.getV 15 == 0xFC) = true := by decide

/-- T5.1. -/
theorem test_shr :
    after (cycle ((State.reset.setV 4 7).setV 10 0xFF) 0x84A6)
      (fun t => t.getV 4 == 3 && t.getV 15 == 1 && t.getV 10 == 0xFF) = true := by decide

/-- T5.3. -/
theorem test_shr_vf :
    after (cycle (State.reset.setV 15 0xFF) 0x8F06)
      (fun t => t.getV 15 == 0) = true := by decide

/-- T4.17. -/
theorem test_subnReg :
    after (cycle ((State.reset.setV 1 5).setV 2 3) 0x8127)
      (fun t => t.getV 1 == 0xFE && t.getV 15 == 0) = true := by decide

/-- T4.20. -/
theorem test_subnReg_vf_source :
    after (cycle ((State.reset.setV 0 9).setV 15 12) 0x80F7)
      (fun t => t.getV 15 == 1 && t.getV 0 == 0xF8) = true := by decide

/-- T5.4. -/
theorem test_shl :
    after (cycle (State.reset.setV 4 0x81) 0x840E)
      (fun t => t.getV 4 == 2 && t.getV 15 == 1) = true := by decide

/-- T5.6. -/
theorem test_shl_vf :
    after (cycle (State.reset.setV 15 0xC3) 0x8F0E)
      (fun t => t.getV 15 == 2) = true := by decide

/-- T2.10. -/
theorem test_sneReg :
    after (cycle (((State.reset.setPc 0x220).setV 2 9).setV 3 8) 0x9230)
      (fun t => t.pc == 0x224) = true := by decide

/-- T2.10. -/
theorem test_sneReg_not :
    after (cycle (((State.reset.setPc 0x220).setV 2 9).setV 3 9) 0x9230)
      (fun t => t.pc == 0x222) = true := by decide

/-- T6.1. -/
theorem test_ldIndex :
    after (cycle (State.reset.setIndex 0xFFFF) 0xA300)
      (fun t => t.index == 0x300) = true := by decide

/-- T2.11. -/
theorem test_jpV0 :
    after (cycle (State.reset.setV 0 4) 0xB300)
      (fun t => t.pc == 0x304) = true := by decide

/-- T2.12. -/
theorem test_jpV0_unmasked :
    after (cycle (State.reset.setV 0 0xFF) 0xBFFF)
      (fun t => t.pc == 0x10FE) = true := by decide

/-- T3.10: whatever byte is drawn. -/
theorem test_rnd_zero_mask : ∃ t, exec (.rnd 3 0) (State.reset.setV 3 9) = .next t ∧ t.getV 3 = 0 :=
  ⟨_, rfl, by simp⟩

/-- T7.16. -/
theorem test_drw_collision :
    after (cycle (((State.reset.storeBytes 0x300 [0xC0]).setIndex 0x300).setFb 0b10) 0xD011)
      (fun t => t.fb == 0b01 && t.getV 15 == 1 && t.events == [.frameReady 0b01]) = true := by decide +kernel

/-- T7.3. -/
theorem test_drw_off_grid : faultedWith (State.reset.setV 0 61) 0xD015 (.displayOutOfBounds 64 0) = true := by decide

/-- T8.1. -/
theorem test_skp :
    after (cycle (((State.reset.setKey 10 true).setPc 0x240).setV 5 10) 0xE59E)
      (fun t => t.pc == 0x244) = true := by decide

/-- T8.3. -/
theorem test_skp_range :
    faultedWith ((State.reset.setPc 0x240).setV 5 16) 0xE59E (.keyIndexOutOfRange 16) = true := by decide

/-- T8.2. -/
theorem test_sknp :
    after (cycle (((State.reset.setKey 10 true).setPc 0x240).setV 5 10) 0xE5A1)
      (fun t => t.pc == 0x242) = true := by decide

/-- T8.2. -/
theorem test_sknp_released :
    after (cycle ((State.reset.setPc 0x240).setV 5 10) 0xE5A1)
      (fun t => t.pc == 0x244) = true := by decide

/-- T8.5. -/
theorem test_ldVxDt :
    after (cycle (State.reset.setDt 5) 0xF307)
      (fun t => t.getV 3 == 5 && t.dt == 4) = true := by decide

/-- T8.14. -/
theorem test_ldKey :
    after (cycle (((((State.reset.setKey 2 true).setKey 7 true).setDt 4).setSt 1).setPc 0x206) 0xF10A)
      (fun t => t.getV 1 == 7 && t.pc == 0x208 && t.dt == 3 && t.st == 0 && t.events == [.beep]) = true := by decide

/-- T8.15. -/
theorem test_ldKey_blocked :
    after (cycle ((((State.reset.setDt 4).setSt 1).setPc 0x206).setV 1 9) 0xF10A)
      (fun t => t.result == some .blocked && t.getV 1 == 9 && t.pc == 0x206 && t.dt == 4 && t.st == 1 && t.events == []) = true := by
  decide

/-- T8.8. -/
theorem test_ldDtVx :
    after (cycle (State.reset.setV 0 3) 0xF015)
      (fun t => t.dt == 2) = true := by decide

/-- T8.9. -/
theorem test_ldDtVx_zero :
    after (cycle (State.reset.setDt 9) 0xF015)
      (fun t => t.dt == 0) = true := by decide

/-- T8.11. -/
theorem test_ldStVx :
    after (cycle (State.reset.setV 0 1) 0xF018)
      (fun t => t.st == 0 && t.events == [.beep]) = true := by decide

/-- T8.12. -/
theorem test_ldStVx_zero :
    after (cycle (State.reset.setSt 1) 0xF018)
      (fun t => t.st == 0 && t.events == []) = true := by decide

/-- T6.2. -/
theorem test_addIndex :
    after (cycle (((State.reset.setIndex 0xFFE).setV 2 3).setV 15 9) 0xF21E)
      (fun t => t.index == 0x1001 && t.getV 15 == 1) = true := by decide

/-- T6.6. -/
theorem test_addIndex_wraps :
    after (cycle (((State.reset.setIndex 0xFFFF).setV 2 1).setV 15 1) 0xF21E)
      (fun t => t.index == 0 && t.getV 15 == 0) = true := by decide

/-- T6.10. -/
theorem test_ldFont :
    after (cycle (State.reset.setV 1 0x1A) 0xF129)
      (fun t => t.index == 130 && t.pc == 0x202) = true := by decide

/-- T6.9. -/
theorem test_ldFont_delta_zero :
    after (cycle (((State.resetWith { Params.default with fx29PcDelta := .zero }).setV 1 10).setDt 3) 0xF129)
      (fun t => t.index == 50 && t.pc == 0x200 && t.dt == 2) = true := by decide

/-- T6.13. -/
theorem test_ldBcd :
    after (cycle ((State.reset.setIndex 4093).setV 0 255) 0xF033)
      (fun t => t.readByte 4093 == 2 && t.readByte 4094 == 5 && t.readByte 4095 == 5 && t.index == 4093) = true := by
  decide

/-- T6.14. -/
theorem test_ldBcd_bounds :
    faultedWith ((State.reset.setIndex 4094).setV 0 255) 0xF033 (.memoryOutOfBounds 4096) = true := by decide

/-- T6.16. -/
theorem test_storeRegs :
    after (cycle (((((State.reset.setIndex 0x400).setV 0 1).setV 1 2).setV 2 3).setV 3 9) 0xF255)
      (fun t => t.readByte 0x400 == 1 && t.readByte 0x402 == 3 && t.readByte 0x403 == 0 && t.index == 0x403) = true := by
  decide

/-- T6.19. -/
theorem test_storeRegs_bounds :
    faultedWith (State.reset.setIndex 0xFF1) 0xFF55 (.memoryOutOfBounds 4096) = true := by decide

/-- T6.20. -/
theorem test_loadRegs :
    after (cycle (((State.reset.storeBytes 0x300 [2, 5, 4, 7]).setIndex 0x300).setV 3 0x33) 0xF265)
      (fun t => t.getV 0 == 2 && t.getV 2 == 4 && t.getV 3 == 0x33 && t.index == 0x303) = true := by decide

/-- T6.21. -/
theorem test_loadRegs_font :
    after (cycle State.reset 0xF165)
      (fun t => t.getV 0 == 0xF0 && t.getV 1 == 0x90 && t.index == 2) = true := by decide

/-! ## The cycle, reset and the host -/

/-- T1.3. -/
theorem test_fetch_bounds :
    after (step (State.reset.setPc 0xFFF)) (fun t => t.fault == some (.memoryOutOfBounds 0x1000)) = true := by decide

/-- T1.5: reset and no program. -/
theorem test_reset_faults :
    after (step State.reset) (fun t => t.fault == some (.unknownOpcode 0 0x200) && t.pc == 0x200) = true := by decide

/-- S8: an unknown word ticks no timer. -/
theorem test_unknown_word :
    after (cycle ((State.reset.setDt 5).setV 3 7) 0x0001) (fun t => t.fault == some (.unknownOpcode 1 0x200) &&
      t.currentOpcode == 1 && t.dt == 5 && t.getV 3 == 7) = true := by decide

/-- T1.11: a halted machine takes a load and a key and still does not run. -/
theorem test_halted :
    after (step (((State.reset.latch (.unknownOpcode 1 0x200)).loadProgram [0x60, 0x01]).setKey 3 true)) (fun t =>
      t.fault == some (.unknownOpcode 1 0x200) && t.result == some .faulted && t.readByte 0x200 == 0x60 &&
      t.key 3 && t.pc == 0x200) = true := by decide

/-- T8.16: a Blocked cycle that ticks. -/
theorem test_blocked_tick :
    after (cycle (((State.resetWith { Params.default with keywaitBlockedTick := true }).setDt 4).setSt 1) 0xF10A)
      (fun t => t.result == some .blocked && t.pc == 0x200 && t.dt == 3 && t.st == 0 && t.events == [.beep]) = true := by
  decide

/-- T7.13: memory is checked before the display. -/
theorem test_priority :
    faultedWith ((State.reset.setIndex 4095).setV 0 70) 0xD012 (.memoryOutOfBounds 4096) = true := by
  decide

/-- T9.2: a second load clears nothing. -/
theorem test_load_twice :
    ([512, 513, 514, 515, 516].map ((State.reset.loadProgram [1, 2, 3, 4]).loadProgram [9]).readByte) = [9, 2, 3, 4, 0] := by
  decide

/-- S7: the capacity of a load. -/
theorem test_load_capacity :
    loadFits (List.replicate 3584 0xAB) = true ∧ loadFits (List.replicate 3585 0xAB) = false := by
  simp only [loadFits, List.length_replicate]
  decide

/-- T9.3: the font is back after Construct, and no fault is latched. -/
theorem test_construct :
    let s := ((State.reset.storeBytes 0 [0, 0, 7]).latch (.stackUnderflow 0x200)).construct
    s.readByte 0 = 0xF0 ∧ s.readByte 2 = 0x90 ∧ s.fault = none := by decide

/-- A word placed for the next fetch is the word fetched, high byte at the lower address (R32). -/
theorem test_withFetchWord :
    (State.reset.withFetchWord 16 0x6A2F).readByte 512 = 0x6A ∧
      (State.reset.withFetchWord 16 0x6A2F).fetchWord = .word 0x6A2F := by decide

/-! ## Witnesses: a state and operands that meet each statement's hypotheses, clause by clause -/

theorem witness_EncodeDecode : decode 0x6A2F = .ok (.ldImm 10 0x2F) := by decide

theorem witness_UnknownWords : (∃ i, decode 0xF165 = .ok i) ∧ knownWord 0xF165 = true ∧ knownWord 0xF166 = false :=
  ⟨⟨.loadRegs 1, by decide⟩, by decide, by decide⟩

theorem witness_FetchBigEndian : (State.reset.setPc 4094).pc.toNat ≤ 4094 := by decide

theorem witness_StepRunsDecoded :
    let s := (State.reset.setPc 4094).withFetchWord 16 0x6A2F
    s.fault = none ∧ s.pc.toNat ≤ 4094 ∧
      (0x6A2F : Word).toNat = 256 * (s.readByte s.pc.toNat).toNat + (s.readByte (s.pc.toNat + 1)).toNat ∧
      decode 0x6A2F = .ok (.ldImm 10 0x2F) := by decide

theorem witness_TickMeaning_ticks :
    ({ State.reset with result := some .normal } : State).result = some .normal ∧
      ({ State.resetWith { Params.default with keywaitBlockedTick := true } with result := some .blocked } : State).result =
        some .blocked := by decide

theorem witness_TickMeaning_still :
    ({ State.reset with result := some .faulted } : State).result = some .faulted ∧
      ({ State.reset with result := some .blocked } : State).result = some .blocked ∧
      State.reset.params.keywaitBlockedTick = false := by decide

theorem witness_FetchOutOfBounds :
    (State.reset.setPc 4095).fault = none ∧ 4094 < (State.reset.setPc 4095).pc.toNat ∧
      4094 < (State.reset.setPc 0xFFFF).pc.toNat := by decide

theorem witness_UnknownOpcodeFaults :
    State.reset.fault = none ∧ State.reset.fetchWord = .word 0 ∧ knownWord 0 = false := by decide

theorem witness_HaltedCycle :
    (State.reset.latch (.stackUnderflow 0x200)).fault = some (.stackUnderflow 0x200) := by decide

theorem witness_FaultsPrecise : ∃ t, State.reset.fault = none ∧ step State.reset = .next t ∧ t.fault ≠ none :=
  ⟨_, rfl, rfl, by decide⟩

theorem witness_PcMoves : ∃ t, State.reset.fault = none ∧ exec (.jpV0 0xFFF) State.reset = .next t ∧ t.fault = none :=
  ⟨_, rfl, rfl, rfl⟩

theorem witness_EventsOfACycle : ∃ t, step State.reset = .next t := ⟨_, rfl⟩

theorem witness_FrameEvents_drawn : ∃ t, exec (.drw 0 0 0) State.reset = .next t ∧ t.fault = none := ⟨_, rfl, rfl⟩

theorem witness_FrameEvents_faulted :
    after (exec (.drw 0 0 1) (State.reset.setV 0 61)) (fun t => t.fault != none) = true := by decide

theorem witness_DelayTimerDecays_other :
    let s := (State.reset.setDt 1).withFetchWord 16 0x1200
    s.fetchWord = .word 0x1200 ∧ after (step s) (fun t => t.result == some .normal) = true ∧
      decode 0x1200 = .ok (.jp 0x200) := by decide

theorem witness_DelayTimerDecays_set :
    let s := State.reset.withFetchWord 16 0xFF15
    s.fetchWord = .word 0xFF15 ∧ after (step s) (fun t => t.result == some .normal) = true ∧
      decode 0xFF15 = .ok (.ldDtVx 15) := by decide

theorem witness_DelayTimerDecays_faulted :
    State.reset.fetchWord = .word 0 ∧ after (step State.reset) (fun t => t.result == some .faulted) = true := by
  decide

theorem witness_SoundTimerSameCycle :
    let s := State.reset.withFetchWord 16 0xF018
    s.fault = none ∧ s.fetchWord = .word 0xF018 ∧ decode 0xF018 = .ok (.ldStVx 0) := by decide

theorem witness_BlockedCycle_still :
    let s := State.reset.withFetchWord 16 0xF10A
    s.fault = none ∧ s.fetchWord = .word 0xF10A ∧ decode 0xF10A = .ok (.ldKey 1) ∧ (∀ k : Reg, s.keys[k.val] = false) ∧
      s.params.keywaitBlockedTick = false := by decide

theorem witness_BlockedCycle_ticks :
    let s := (State.resetWith { Params.default with keywaitBlockedTick := true }).withFetchWord 16 0xF10A
    s.fault = none ∧ s.fetchWord = .word 0xF10A ∧ decode 0xF10A = .ok (.ldKey 1) ∧ (∀ k : Reg, s.keys[k.val] = false) ∧
      s.params.keywaitBlockedTick = true := by decide

theorem witness_Fx29LoopsUnderDeltaZero :
    let s := (State.resetWith { Params.default with fx29PcDelta := .zero }).withFetchWord 16 0xF129
    s.fault = none ∧ s.fetchWord = .word 0xF129 ∧ decode 0xF129 = .ok (.ldFont 1) ∧ s.params.fx29PcDelta = .zero := by
  decide

theorem witness_ReturnPops :
    ({ State.reset with sp := 1 } : State).sp.val = (0 : Reg).val + 1 ∧
      ({ State.reset with sp := 16 } : State).sp.val = (15 : Reg).val + 1 ∧ State.reset.sp.val = 0 := by decide

theorem witness_CallPushes :
    State.reset.sp.val = (0 : Reg).val ∧ ({ State.reset with sp := 15 } : State).sp.val = (15 : Reg).val ∧
      ({ State.reset with sp := 16 } : State).sp.val = 16 := by decide

theorem witness_CallReturnRoundTrip : ({ State.reset with sp := 15 } : State).sp.val < 16 := by decide

/-- The five cases of R96, R97 and R99 are told apart by the register numbers alone; both values of the flag occur at
the edges 255 and 256 of the sum. -/
theorem witness_AddWithCarry :
    let s := (State.reset.setV 0 200).setV 1 55
    let s' := (State.reset.setV 0 200).setV 1 56
    (0 : Reg) ≠ 15 ∧ (1 : Reg) ≠ 15 ∧ (0 = if (s.getV 0).toNat + (s.getV 1).toNat > 255 then 1 else 0) ∧
      (1 = if (s'.getV 0).toNat + (s'.getV 1).toNat > 255 then 1 else 0) := by decide

theorem witness_AddWithCarry_vf :
    let s := State.reset.setV 15 128
    (1 = if (s.getV 15).toNat + (s.getV 15).toNat > 255 then 1 else 0) ∧
      (0 = if (s.getV 15).toNat + (s.getV 1).toNat > 255 then 1 else 0) := by decide

/-- Equal operands borrow nothing; a larger subtrahend borrows. -/
theorem witness_SubtractWithBorrow :
    let s := (State.reset.setV 0 5).setV 1 5
    let s' := (State.reset.setV 0 5).setV 1 6
    (1 = if (s.getV 1).toNat > (s.getV 0).toNat then 0 else 1) ∧
      (0 = if (s'.getV 1).toNat > (s'.getV 0).toNat then 0 else 1) ∧
      (1 = if (s.getV 15).toNat > (s.getV 15).toNat then 0 else 1) := by decide

theorem witness_SubtractReversed :
    let s := (State.reset.setV 0 5).setV 1 5
    let s' := (State.reset.setV 0 6).setV 1 5
    (1 = if (s.getV 0).toNat > (s.getV 1).toNat then 0 else 1) ∧
      (0 = if (s'.getV 0).toNat > (s'.getV 1).toNat then 0 else 1) ∧
      (1 = if (s.getV 15).toNat > (s.getV 15).toNat then 0 else 1) := by decide

theorem witness_FontGlyphAddress :
    State.reset.params.fx29PcDelta = .two ∧
      (State.resetWith { Params.default with fx29PcDelta := .zero }).params.fx29PcDelta = .zero := by decide

theorem witness_BcdStored :
    (State.reset.setIndex 4093).index.toNat + 2 ≤ 4095 ∧ (State.reset.setIndex 4094).index.toNat + 2 > 4095 := by
  decide

theorem witness_RegistersStored :
    (State.reset.setIndex 0xFF0).index.toNat + (15 : Reg).val ≤ 4095 ∧
      (State.reset.setIndex 0xFF1).index.toNat + (15 : Reg).val > 4095 := by decide

theorem witness_RegistersLoaded :
    (State.reset.setIndex 4095).index.toNat + (0 : Reg).val ≤ 4095 ∧
      (State.reset.setIndex 4095).index.toNat + (1 : Reg).val > 4095 := by decide

theorem witness_StoredCodeIsFetched_registers :
    let s := (State.reset.setIndex 4095).setV 0 0xAA
    let b : Nat → Byte := fun a => if a = 4095 then 0xAA else s.readByte a
    (4094 : Word).toNat ≤ 4094 ∧ s.index.toNat + (0 : Reg).val ≤ 4095 ∧
      (∀ k : Reg, k ≤ 0 → b (s.index.toNat + k.val) = s.getV k) ∧
      ∀ a, (a < s.index.toNat ∨ s.index.toNat + (0 : Reg).val < a) → b a = s.readByte a := by
  refine ⟨by decide, by decide, by decide, fun a ha => if_neg fun e => ?_⟩
  subst e
  revert ha
  decide

theorem witness_StoredCodeIsFetched_digits :
    let s := (State.reset.setIndex 4093).setV 0 255
    let b : Nat → Byte := fun a => if a = 4093 then 2 else if a = 4094 ∨ a = 4095 then 5 else s.readByte a
    s.index.toNat + 2 ≤ 4095 ∧ (b s.index.toNat).toNat = (s.getV 0).toNat / 100 ∧
      (b (s.index.toNat + 1)).toNat = (s.getV 0).toNat / 10 % 10 ∧
      (b (s.index.toNat + 2)).toNat = (s.getV 0).toNat % 10 ∧
      ∀ a, (a < s.index.toNat ∨ s.index.toNat + 2 < a) → b a = s.readByte a := by
  refine ⟨by decide, by decide, by decide, by decide, fun a ha => ?_⟩
  have hi : ((State.reset.setIndex 4093).setV 0 255).index.toNat = 4093 := by decide
  rw [hi] at ha
  dsimp only
  rw [if_neg (by omega), if_neg (by omega)]

/-- The full row 0xFF that ends in the corner (63, 31), and the sprite of no rows with `I` far outside memory. -/
theorem witness_SpriteDrawn :
    let s := (((State.reset.storeBytes 0x300 [0xFF]).setIndex 0x300).setV 0 56).setV 1 31
    spriteInMemory s 1 ∧ spriteOnGrid s 0 1 1 ∧ spriteCovers s 0 1 1 63 31 ∧ ¬ spriteCovers s 0 1 1 55 31 := by
  refine ⟨.inr (by decide), (spriteOnGrid_iff _ _ _ _).2 (by decide), (spriteCovers_iff _ _ _ _ _ _).2 (by decide),
    fun h => ?_⟩
  have := (spriteCovers_iff _ _ _ _ _ _).1 h
  revert this
  decide

theorem witness_SpriteDrawn_empty :
    spriteInMemory (State.reset.setIndex 0xFFFF) 0 ∧ spriteOnGrid (State.reset.setIndex 0xFFFF) 0 1 0 :=
  ⟨.inl rfl, (spriteOnGrid_iff _ _ _ _).2 (by decide)⟩

/-- The last byte of memory as a sprite. -/
theorem witness_SpriteDrawn_top : spriteInMemory (State.reset.setIndex 4095) 1 := .inr (by decide)

/-- A covered pixel that is set, and a frame in which none is. -/
theorem witness_SpriteDrawn_collision :
    let s := (((State.reset.storeBytes 0x300 [0x80]).setIndex 0x300).setFb 1)
    (∃ px py, spriteCovers s 0 1 1 px py ∧ Frame.pixel s.fb px py = true) ∧
      ¬ ∃ px py, spriteCovers (s.setFb 0) 0 1 1 px py ∧ Frame.pixel (s.setFb 0).fb px py = true := by
  refine ⟨⟨0, 0, (spriteCovers_iff _ _ _ _ _ _).2 (by decide), by decide +kernel⟩, ?_⟩
  rintro ⟨px, py, _, h⟩
  simp [Frame.pixel] at h

theorem witness_SpriteFaults_memory :
    1 ≤ (2 : Fin 16).val ∧ (State.reset.setIndex 4095).index.toNat + (2 : Fin 16).val - 1 > 4095 := by decide

/-- The first lit bit off the grid: column offset 3 of row 0 of the glyph at 0, drawn at column 61 (T7.3). -/
theorem witness_SpriteFaults_display :
    let s := State.reset.setV 0 61
    spriteInMemory s 5 ∧ spriteLit s 5 0 3 ∧ (63 < (s.getV 0).toNat + 3 ∨ 31 < (s.getV 1).toNat + 0) ∧
      ∀ r' c', spriteLit s 5 r' c' → (r' < 0 ∨ (r' = 0 ∧ c' < 3)) →
        (s.getV 0).toNat + c' ≤ 63 ∧ (s.getV 1).toNat + r' ≤ 31 := by
  refine ⟨.inr (by decide), by unfold spriteLit; decide, .inl (by decide), fun r' c' _ h => ?_⟩
  have h0 : ((State.reset.setV 0 61).getV 0).toNat = 61 := by decide
  have h1 : ((State.reset.setV 0 61).getV 1).toNat = 0 := by decide
  omega

theorem witness_DrawTwiceRestores :
    spriteInMemory State.reset 5 ∧ spriteOnGrid State.reset 0 1 5 ∧
      after (exec (.drw 0 1 5) State.reset) (fun t => t.getV 0 == State.reset.getV 0 && t.getV 1 == State.reset.getV 1) =
        true :=
  ⟨.inr (by decide), (spriteOnGrid_iff _ _ _ _).2 (by decide), by decide +kernel⟩

/-- `VF` as a coordinate of both draws: it is 0 before and, with no collision, 0 after. -/
theorem witness_DrawTwiceRestores_vf :
    spriteOnGrid State.reset 15 15 5 ∧
      after (exec (.drw 15 15 5) State.reset) (fun t => t.getV 15 == State.reset.getV 15) = true :=
  ⟨(spriteOnGrid_iff _ _ _ _).2 (by decide), by decide +kernel⟩

theorem witness_DrawLoopAgrees : ∀ p ∈ State.reset.litPixels 60 27 5, offGrid p = false := by decide

theorem witness_KeySkips :
    ((State.reset.setV 5 15).getV 5).toNat = (15 : Reg).val ∧ ((State.reset.setV 5 16).getV 5).toNat > 15 := by decide

theorem witness_KeyWait :
    (State.reset.setKey 14 true).keys[(14 : Reg).val] = true ∧
      (∀ j : Reg, (14 : Reg) < j → (State.reset.setKey 14 true).keys[j.val] = false) ∧
      ∀ k : Reg, State.reset.keys[k.val] = false := by decide

theorem witness_ResetLeaves :
    State.reset = State.resetWith Params.default ∧ State.reset.params = Params.default ∧ (79 < 80 ∧ 80 ≤ 80) :=
  ⟨rfl, rfl, by decide⟩

theorem witness_StepKeepsInv : State.reset.Inv ∧ ∃ t, step State.reset = .next t := by
  refine ⟨?_, _, rfl⟩
  unfold State.Inv
  decide

theorem witness_HostKeepsInv :
    HostMove.setKey 3 true ≠ .executeCycle ∧ HostMove.construct ≠ .executeCycle ∧
      HostMove.loadProgram [0x60] ≠ .executeCycle ∧ State.reset.Inv ∧
      ∃ t, applyMove (.loadProgram [0x60]) State.reset = .next t := by
  refine ⟨by decide, by decide, by decide, ?_, _, rfl⟩
  unfold State.Inv
  decide

theorem witness_LoadProgramCopies :
    (List.replicate 3584 (0xAB : Byte)).length ≤ 3584 ∧ 3584 < (List.replicate 3585 (0xAB : Byte)).length ∧
      3583 < (List.replicate 3584 (0xAB : Byte)).length ∧ State.reset.fault = none ∧
      (State.reset.latch (.stackUnderflow 0)).fault = some (.stackUnderflow 0) := by
  simp only [List.length_replicate]
  decide

theorem witness_SetKeySets : (0 : Reg) ≠ 15 := by decide

/-- The bytes just outside what FX33 stores, at the edges of the range, and a stack entry other than the one at `sp`. -/
theorem witness_OnlyNamedWriters_outside :
    let s := State.reset.setIndex 0x300
    0x2FF < s.baseAddress ∧ s.baseAddress + storeWidth (.ldBcd 0) ≤ 0x303 ∧
      s.baseAddress + storeWidth (.storeRegs 15) ≤ 0x310 ∧ (∃ t, exec (.ldBcd 0) s = .next t) ∧
      (1 : Reg).val ≠ s.sp.val := by
  refine ⟨by decide, by decide, by decide, ⟨_, rfl⟩, by decide⟩

theorem witness_OnlyNamedWriters :
    ∃ t, exec (.loadRegs 15) State.reset = .next t ∧ t.getV 15 = 0xF0 := ⟨_, rfl, by decide⟩

theorem witness_CycleKeepsKeypad : ∃ t, step (State.reset.setKey 15 true) = .next t ∧ t.key 15 = true :=
  ⟨_, rfl, by decide⟩

theorem witness_HiddenStateUnreadable : ∃ t, exec (.ldStVx 0) (State.reset.setSt 9) = .next t ∧ t.st = 0 :=
  ⟨_, rfl, by decide⟩

theorem witness_StaleSlotsUnreadable :
    let s : State := { State.reset with sp := 15 }
    s.sp.val ≤ (15 : Reg).val ∧ (∃ t, exec .ret s = .next t) ∧
      ∃ u, exec .ret { s with stack := s.stack.set 15 0xABC } = .next u := ⟨by decide, ⟨_, rfl⟩, ⟨_, rfl⟩⟩

theorem witness_SkipOnRegisters :
    (1 : Fin 16) ≠ 0 ∧ (0x5231 : Word) = BitVec.ofNat 16 (0x5000 + 256 * (2 : Reg).val + 16 * (3 : Reg).val + (1 : Fin 16).val) := by
  decide

end Sys2Proof.Tests
end

