-- ==== Sys2Proof/Proofs/Scope.lean ====
section
/-! PROOFS. Proofs/Scope.lean: what one step can do, once for all later proofs, and from it that no cycle writes the
keypad or a parameter (00_scope.md R6, R10; 10_state.md R19). -/

namespace Sys2Proof.Machine

/-! ## What one step can do (R79) -/

/-- A step that answers `t` was a halted cycle, a fetch out of bounds, an unknown word, or an instruction followed by
the end of its cycle. -/
theorem step_next_cases {s t : State} (h : step s = .next t) :
    (∃ f, s.fault = some f ∧ haltedCycle s = .next t) ∨
      (∃ a, s.fault = none ∧ s.fetchWord = .outOfBounds a ∧ raiseFault s (.memoryOutOfBounds a) = .next t) ∨
      (∃ op e, s.fault = none ∧ s.fetchWord = .word op ∧ decode op = .error e ∧
        raiseFault (s.beginCycle op) (.unknownOpcode op s.pc) = .next t) ∨
      (∃ op i u, s.fault = none ∧ s.fetchWord = .word op ∧ decode op = .ok i ∧
        exec i (s.beginCycle op) = .next u ∧ t = u.finishCycle) := by
  unfold step at h
  split at h
  case h_1 f hfault => exact .inl ⟨f, hfault, h⟩
  case h_2 hfault =>
    split at h
    case h_1 a hfetch => exact .inr (.inl ⟨a, hfault, hfetch, h⟩)
    case h_2 op hfetch =>
      split at h
      case h_1 e hdec => exact .inr (.inr (.inl ⟨op, e, hfault, hfetch, hdec, h⟩))
      case h_2 i hdec =>
        split at h
        case h_1 u hexec =>
          injection h with h
          exact .inr (.inr (.inr ⟨op, i, u, hfault, hfetch, hdec, hexec, h.symm⟩))
        all_goals cases h

/-! ## The state only the host sets -/

/-- `t` has the keypad and the parameters of `s`: the host alone sets them (R6, R10, R19). -/
def SameHostInputs (s t : State) : Prop := t.keys = s.keys ∧ t.params = s.params

theorem SameHostInputs.trans {s t u : State} (h : SameHostInputs s t) (h' : SameHostInputs t u) :
    SameHostInputs s u := ⟨h'.1.trans h.1, h'.2.trans h.2⟩

/-- Whatever next state `r` answers has the keypad and the parameters of `s`. -/
def KeepsHostInputs (s : State) (r : Result) : Prop := ∀ t, r = .next t → SameHostInputs s t

theorem keepsHostInputs_next {s t : State} (h : SameHostInputs s t) : KeepsHostInputs s (.next t) := by
  rintro _ ⟨⟩
  exact h

theorem sameHostInputs_beginCycle (s : State) (op : Word) : SameHostInputs s (s.beginCycle op) := ⟨rfl, rfl⟩

theorem sameHostInputs_finishCycle (s : State) : SameHostInputs s s.finishCycle := by
  obtain ⟨h, _⟩ | ⟨h, _⟩ := s.finishCycle_cases <;> rw [h]
  · exact ⟨s.tick_keys, s.tick_params⟩
  · exact ⟨rfl, rfl⟩

/-! ## The shared shapes of instructions -/

theorem haltedCycle_keepsHostInputs (s : State) : KeepsHostInputs s (haltedCycle s) :=
  keepsHostInputs_next ⟨rfl, rfl⟩

theorem raiseFault_keepsHostInputs (s : State) (f : Fault) : KeepsHostInputs s (raiseFault s f) :=
  keepsHostInputs_next ⟨rfl, rfl⟩

theorem writeReg_keepsHostInputs (x : Reg) (b : Byte) (s : State) : KeepsHostInputs s (writeReg x b s) :=
  keepsHostInputs_next ⟨rfl, rfl⟩

theorem flagThenResult_keepsHostInputs (x y : Reg) (flag : Byte) (op : Byte → Byte → Byte) (s : State) :
    KeepsHostInputs s (flagThenResult x y flag op s) := keepsHostInputs_next ⟨rfl, rfl⟩

theorem skipIf_keepsHostInputs (c : Bool) (s : State) : KeepsHostInputs s (skipIf c s) :=
  keepsHostInputs_next ⟨rfl, rfl⟩

theorem skipIfKey_keepsHostInputs (x : Reg) (level : Bool) (s : State) :
    KeepsHostInputs s (skipIfKey x level s) := by
  unfold skipIfKey
  split
  · exact raiseFault_keepsHostInputs _ _
  · exact skipIf_keepsHostInputs _ _

theorem checkIndexed_keepsHostInputs (n : Nat) (s : State) (go : State → State) (hgo : SameHostInputs s (go s)) :
    KeepsHostInputs s (checkIndexed n s go) := by
  obtain ⟨h, _⟩ | ⟨h, _⟩ := checkIndexed_cases n s go <;> rw [h]
  · exact raiseFault_keepsHostInputs _ _
  · exact keepsHostInputs_next hgo

/-! ## The instructions with a case split of their own -/

theorem execRet_keepsHostInputs (s : State) : KeepsHostInputs s (execRet s) := by
  unfold execRet
  split
  · exact raiseFault_keepsHostInputs _ _
  · exact keepsHostInputs_next ⟨rfl, rfl⟩

theorem execCall_keepsHostInputs (nnn : Addr12) (s : State) : KeepsHostInputs s (execCall nnn s) := by
  unfold execCall
  split
  · exact raiseFault_keepsHostInputs _ _
  · exact keepsHostInputs_next ⟨rfl, rfl⟩

theorem execDrw_keepsHostInputs (x y : Reg) (n : Fin 16) (s : State) : KeepsHostInputs s (execDrw x y n s) := by
  unfold execDrw
  split
  · exact raiseFault_keepsHostInputs _ _
  · dsimp only
    split
    · exact raiseFault_keepsHostInputs _ _
    · exact keepsHostInputs_next ⟨rfl, rfl⟩

theorem execLdKey_keepsHostInputs (x : Reg) (s : State) : KeepsHostInputs s (execLdKey x s) := by
  unfold execLdKey
  split
  · exact writeReg_keepsHostInputs _ _ _
  · exact keepsHostInputs_next ⟨rfl, rfl⟩

/-! ## Every instruction, every step -/

theorem exec_keepsHostInputs (i : Instr) (s : State) : KeepsHostInputs s (exec i s) := by
  cases i with
  | ret => exact execRet_keepsHostInputs s
  | call nnn => exact execCall_keepsHostInputs nnn s
  | drw x y n => exact execDrw_keepsHostInputs x y n s
  | ldKey x => exact execLdKey_keepsHostInputs x s
  | skp x | sknp x => exact skipIfKey_keepsHostInputs x _ s
  | seImm | sneImm | seReg | sneReg => exact skipIf_keepsHostInputs _ s
  | ldImm x | addImm x | ldReg x | orReg x | andReg x | xorReg x | ldVxDt x =>
    exact writeReg_keepsHostInputs x _ s
  | addReg x y | subReg x y | shr x y | subnReg x y | shl x y =>
    simp only [exec, execAddReg, execSubReg, execShr, execSubnReg, execShl]
    exact flagThenResult_keepsHostInputs x y _ _ s
  | ldBcd | storeRegs | loadRegs =>
    simp only [exec, execLdBcd, execStoreRegs, execLoadRegs]
    exact checkIndexed_keepsHostInputs _ s _ ⟨rfl, rfl⟩
  | cls | jp | jpV0 | rnd | ldIndex | addIndex | ldFont | ldDtVx | ldStVx => exact keepsHostInputs_next ⟨rfl, rfl⟩

theorem step_keepsHostInputs (s : State) : KeepsHostInputs s (step s) := by
  intro t h
  obtain ⟨_, _, h⟩ | ⟨_, _, _, h⟩ | ⟨op, _, _, _, _, h⟩ | ⟨op, i, u, _, _, _, hu, rfl⟩ := step_next_cases h
  · exact haltedCycle_keepsHostInputs s t h
  · exact raiseFault_keepsHostInputs s _ t h
  · exact (sameHostInputs_beginCycle s op).trans (raiseFault_keepsHostInputs _ _ t h)
  · have hexec : SameHostInputs s u := (sameHostInputs_beginCycle s op).trans (exec_keepsHostInputs i _ u hu)
    exact hexec.trans (sameHostInputs_finishCycle u)

/-- Settles O58: each of the four things a step can do leaves the keypad and the parameters as they were. -/
theorem cycleKeepsKeypad : Obligations.CycleKeepsKeypad := step_keepsHostInputs

end Sys2Proof.Machine
end

