-- ==== Sys2Proof/Proofs/Frames.lean ====
section
/-! PROOFS. Proofs/Frames.lean: what each update of the state leaves unchanged, and from it that no instruction writes
what the spec's tables of writers do not give it (10_state.md R11, R12, R16, R18, R19, R22; 20_memory.md R35). -/

namespace Sys2Proof.Machine

/-! ## Frames compose -/

theorem Part.same_trans {p : Part} {s t u : State} (h : p.same s t) (h' : p.same t u) : p.same s u := by
  cases p
  case memory | stack => exact fun a => (h' a).trans (h a)
  all_goals exact Eq.trans h' h

theorem changesOnly.trans {regs : List Reg} {parts : List Part} {s t u : State} (h : changesOnly regs parts s t)
    (h' : changesOnly regs parts t u) : changesOnly regs parts s u :=
  ⟨fun r hr => (h'.1 r hr).trans (h.1 r hr), fun p hp => Part.same_trans (h.2 p hp) (h'.2 p hp)⟩

/-! ## One rule per update of the state -/

section

variable {regs : List Reg} {parts : List Part} (s : State)

theorem changesOnly_setRegs (v : Vector Byte 16) (h : ∀ r : Reg, r ∉ regs → v[r.val] = s.getV r) :
    changesOnly regs parts s { s with v := v } :=
  changesOnly_of _ _ _ _ h rfl (.inr rfl) (.inr rfl) fun p _ _ _ => by cases p <;> simp_all [Part.same]

theorem changesOnly_setV {r : Reg} (h : r ∈ regs) (b : Byte) : changesOnly regs parts s (s.setV r b) :=
  changesOnly_setRegs s _ fun q hq => State.getV_setV_ne s r q b fun e => hq (e ▸ h)

/-- A change to one piece of state other than memory and the stack. The field laws show of each update that the other
pieces are as before, so they close the last five hypotheses by themselves. -/
theorem changesOnly_of_part {t : State} (part : Part) (hpart : part ∈ parts) (hv : t.v = s.v := by rfl)
    (hparams : t.params = s.params := by rfl) (hmem : t.mem = s.mem := by rfl) (hstack : t.stack = s.stack := by rfl)
    (hrest : ∀ p, p ≠ part → p ≠ .memory → p ≠ .stack → p.same s t := by
      intro p
      cases p <;> simp_all [Part.same]) :
    changesOnly regs parts s t :=
  changesOnly_of _ _ _ _ (fun r _ => by simp only [State.getV, hv]) hparams (.inr hmem) (.inr hstack)
    fun p hp => hrest p fun e => hp (e ▸ hpart)

theorem changesOnly_setPc (h : .pc ∈ parts) (w : Word) : changesOnly regs parts s (s.setPc w) :=
  changesOnly_of_part s .pc h

theorem changesOnly_advance (h : .pc ∈ parts) (n : Word) : changesOnly regs parts s (s.advance n) :=
  changesOnly_setPc s h _

theorem changesOnly_setIndex (h : .index ∈ parts) (w : Word) : changesOnly regs parts s (s.setIndex w) :=
  changesOnly_of_part s .index h

theorem changesOnly_setDt (h : .delayTimer ∈ parts) (b : Byte) : changesOnly regs parts s (s.setDt b) :=
  changesOnly_of_part s .delayTimer h

theorem changesOnly_setSt (h : .soundTimer ∈ parts) (b : Byte) : changesOnly regs parts s (s.setSt b) :=
  changesOnly_of_part s .soundTimer h

theorem changesOnly_setFb (h : .display ∈ parts) (f : Frame) : changesOnly regs parts s (s.setFb f) :=
  changesOnly_of_part s .display h

theorem changesOnly_emitFrame (h : .events ∈ parts) : changesOnly regs parts s s.emitFrame :=
  changesOnly_of_part s .events h

theorem changesOnly_pop (h : .sp ∈ parts) (k : Reg) : changesOnly regs parts s (s.pop k) :=
  changesOnly_of_part s .sp h

theorem changesOnly_setKey (h : .keypad ∈ parts) (k : Reg) (b : Bool) : changesOnly regs parts s (s.setKey k b) :=
  changesOnly_of_part s .keypad h

theorem changesOnly_setDraws (h : .draws ∈ parts) (n : Nat) : changesOnly regs parts s { s with draws := n } :=
  changesOnly_of_part s .draws h

theorem changesOnly_setResult (h : .result ∈ parts) (r : Option CycleResult) :
    changesOnly regs parts s { s with result := r } :=
  changesOnly_of_part s .result h

theorem changesOnly_latch (h : .fault ∈ parts) (f : Fault) : changesOnly regs parts s (s.latch f) :=
  changesOnly_of_part s .fault h

theorem changesOnly_push (hstack : .stack ∈ parts) (hsp : .sp ∈ parts) (k : Reg) (w : Word) :
    changesOnly regs parts s (s.push k w) :=
  changesOnly_of _ _ _ _ (fun _ _ => rfl) rfl (.inr rfl) (.inl hstack) fun p _ _ _ => by
    cases p <;> simp_all [Part.same]

theorem changesOnly_storeBytes (h : .memory ∈ parts) (a : Nat) (bs : List Byte) :
    changesOnly regs parts s (s.storeBytes a bs) :=
  changesOnly_of _ _ _ _ (fun _ _ => rfl) rfl (.inl h) (.inr rfl) fun p _ _ _ => by cases p <;> simp_all [Part.same]

end

/-! ## The shared shapes of instructions -/

/-- Whatever next state `r` answers differs from `s` in the registers and pieces of state named alone. -/
def WritesOnly (regs : List Reg) (parts : List Part) (s : State) (r : Result) : Prop :=
  ∀ t, r = .next t → changesOnly regs parts s t

section

variable {regs : List Reg} {parts : List Part} {s : State}

theorem writesOnly_next {t : State} (h : changesOnly regs parts s t) : WritesOnly regs parts s (.next t) := by
  rintro _ ⟨⟩
  exact h

theorem raiseFault_writesOnly (hfault : .fault ∈ parts) (hresult : .result ∈ parts) (f : Fault) :
    WritesOnly regs parts s (raiseFault s f) :=
  writesOnly_next ((changesOnly_latch s hfault f).trans (changesOnly_setResult _ hresult _))

theorem checkIndexed_writesOnly (hfault : .fault ∈ parts) (hresult : .result ∈ parts) {n : Nat} {go : State → State}
    (hgo : changesOnly regs parts s (go s)) : WritesOnly regs parts s (checkIndexed n s go) := by
  obtain ⟨e, _⟩ | ⟨e, _⟩ := checkIndexed_cases n s go <;> rw [e]
  · exact raiseFault_writesOnly hfault hresult _
  · exact writesOnly_next hgo

section

variable (hpc : .pc ∈ parts)
include hpc

theorem writeReg_writesOnly {x : Reg} (hx : x ∈ regs) (b : Byte) : WritesOnly regs parts s (writeReg x b s) :=
  writesOnly_next ((changesOnly_setV s hx b).trans (changesOnly_advance _ hpc 2))

theorem flagThenResult_writesOnly {x : Reg} (hx : x ∈ regs) (hvf : vf ∈ regs) (y : Reg) (flag : Byte)
    (op : Byte → Byte → Byte) : WritesOnly regs parts s (flagThenResult x y flag op s) :=
  writesOnly_next
    (((changesOnly_setV s hvf flag).trans (changesOnly_setV _ hx _)).trans (changesOnly_advance _ hpc 2))

theorem skipIf_writesOnly (c : Bool) : WritesOnly regs parts s (skipIf c s) :=
  writesOnly_next (changesOnly_advance s hpc _)

theorem skipIfKey_writesOnly (hfault : .fault ∈ parts) (hresult : .result ∈ parts) (x : Reg) (level : Bool) :
    WritesOnly regs parts s (skipIfKey x level s) := by
  unfold skipIfKey
  split
  · exact raiseFault_writesOnly hfault hresult _
  · exact skipIf_writesOnly hpc _

end

end

/-! ## The instructions with updates of their own -/

section

variable (s : State)

theorem execCls_writesOnly : WritesOnly [] [.pc, .display, .events] s (execCls s) :=
  writesOnly_next (((changesOnly_setFb s (by simp) _).trans (changesOnly_emitFrame _ (by simp))).trans
    (changesOnly_advance _ (by simp) 2))

theorem execRet_writesOnly : WritesOnly [] [.pc, .sp, .fault, .result] s (execRet s) := by
  unfold execRet
  split
  · exact raiseFault_writesOnly (by simp) (by simp) _
  · exact writesOnly_next ((changesOnly_pop s (by simp) _).trans (changesOnly_setPc _ (by simp) _))

theorem execCall_writesOnly (nnn : Addr12) :
    WritesOnly [] [.pc, .sp, .stack, .fault, .result] s (execCall nnn s) := by
  unfold execCall
  split
  · exact raiseFault_writesOnly (by simp) (by simp) _
  · exact writesOnly_next ((changesOnly_push s (by simp) (by simp) _ _).trans (changesOnly_setPc _ (by simp) _))

theorem execDrw_writesOnly (x y : Reg) (n : Fin 16) :
    WritesOnly [15] [.pc, .display, .events, .fault, .result] s (execDrw x y n s) := by
  unfold execDrw
  split
  · exact raiseFault_writesOnly (by simp) (by simp) _
  · dsimp only
    split
    · exact raiseFault_writesOnly (by simp) (by simp) _
    · exact writesOnly_next ((((changesOnly_setV s (by simp) _).trans (changesOnly_setFb _ (by simp) _)).trans
        (changesOnly_emitFrame _ (by simp))).trans (changesOnly_advance _ (by simp) 2))

theorem execLdKey_writesOnly (x : Reg) : WritesOnly [x] [.pc, .result] s (execLdKey x s) := by
  unfold execLdKey
  split
  · exact writeReg_writesOnly (by simp) (by simp) _
  · exact writesOnly_next (changesOnly_setResult s (by simp) _)

theorem execRnd_writesOnly (x : Reg) (nn : Byte) : WritesOnly [x] [.pc, .draws] s (execRnd x nn s) := by
  intro t ht
  exact (changesOnly_setDraws s (by simp) _).trans (writeReg_writesOnly (by simp) (by simp) _ t ht)

theorem execLdIndex_writesOnly (nnn : Addr12) : WritesOnly [] [.pc, .index] s (execLdIndex nnn s) :=
  writesOnly_next ((changesOnly_setIndex s (by simp) _).trans (changesOnly_advance _ (by simp) 2))

theorem execAddIndex_writesOnly (x : Reg) : WritesOnly [15] [.pc, .index] s (execAddIndex x s) :=
  writesOnly_next (((changesOnly_setIndex s (by simp) (s.index + zextByte (s.getV x))).trans
    (changesOnly_setV _ (by simp) _)).trans (changesOnly_advance _ (by simp) 2))

theorem execLdFont_writesOnly (x : Reg) : WritesOnly [] [.pc, .index] s (execLdFont x s) :=
  writesOnly_next ((changesOnly_setIndex s (by simp) _).trans (changesOnly_advance _ (by simp) _))

theorem execLdBcd_writesOnly (x : Reg) : WritesOnly [] [.pc, .memory, .fault, .result] s (execLdBcd x s) :=
  checkIndexed_writesOnly (by simp) (by simp)
    ((changesOnly_storeBytes s (by simp) _ _).trans (changesOnly_advance _ (by simp) 2))

theorem execStoreRegs_writesOnly (x : Reg) :
    WritesOnly [] [.pc, .memory, .index, .fault, .result] s (execStoreRegs x s) :=
  checkIndexed_writesOnly (by simp) (by simp)
    (((changesOnly_storeBytes s (by simp) _ _).trans (changesOnly_setIndex _ (by simp) _)).trans
      (changesOnly_advance _ (by simp) 2))

theorem execLoadRegs_writesOnly (x : Reg) :
    WritesOnly ((List.finRange 16).filter fun r => r ≤ x) [.pc, .index, .fault, .result] s (execLoadRegs x s) := by
  have hregs : changesOnly ((List.finRange 16).filter fun r => r ≤ x) [.pc, .index, .fault, .result] s
      { s with v := s.loadedRegs s.baseAddress x } := by
    refine changesOnly_setRegs s _ fun r hr => ?_
    have hlt : ¬ r.val ≤ x.val := fun hle => hr (by simpa using hle)
    rw [State.loadedRegs_get, if_neg hlt]
  exact checkIndexed_writesOnly (by simp) (by simp)
    ((hregs.trans (changesOnly_setIndex _ (by simp) _)).trans (changesOnly_advance _ (by simp) 2))

end

/-! ## Every instruction -/

theorem exec_writesOnly (i : Instr) (s : State) : WritesOnly (registerWriters i) (partWriters i) s (exec i s) := by
  cases i with
  | cls => exact execCls_writesOnly s
  | ret => exact execRet_writesOnly s
  | call nnn => exact execCall_writesOnly s nnn
  | drw x y n => exact execDrw_writesOnly s x y n
  | ldKey x => exact execLdKey_writesOnly s x
  | rnd x nn => exact execRnd_writesOnly s x nn
  | ldIndex nnn => exact execLdIndex_writesOnly s nnn
  | addIndex x => exact execAddIndex_writesOnly s x
  | ldFont x => exact execLdFont_writesOnly s x
  | ldBcd x => exact execLdBcd_writesOnly s x
  | storeRegs x => exact execStoreRegs_writesOnly s x
  | loadRegs x => exact execLoadRegs_writesOnly s x
  | jp | jpV0 => exact writesOnly_next (changesOnly_setPc s (by simp [partWriters]) _)
  | seImm | sneImm | seReg | sneReg => exact skipIf_writesOnly (by simp [partWriters]) _
  | skp x | sknp x =>
    exact skipIfKey_writesOnly (by simp [partWriters]) (by simp [partWriters]) (by simp [partWriters]) x _
  | ldImm | addImm | ldReg | orReg | andReg | xorReg | ldVxDt =>
    exact writeReg_writesOnly (by simp [partWriters]) (by simp [registerWriters]) _
  | addReg x y | subReg x y | shr x y | subnReg x y | shl x y =>
    simp only [exec, execAddReg, execSubReg, execShr, execSubnReg, execShl]
    exact flagThenResult_writesOnly (by simp [partWriters]) (by simp [registerWriters]) (by simp [registerWriters])
      y _ _
  | ldDtVx => exact writesOnly_next ((changesOnly_setDt s (by simp [partWriters]) _).trans
      (changesOnly_advance _ (by simp [partWriters]) 2))
  | ldStVx => exact writesOnly_next ((changesOnly_setSt s (by simp [partWriters]) _).trans
      (changesOnly_advance _ (by simp [partWriters]) 2))

/-! ## The bytes and the stack entry that may change -/

theorem memory_mem_partWriters {i : Instr} (h : .memory ∈ partWriters i) : ∃ x, i = .ldBcd x ∨ i = .storeRegs x := by
  cases i <;> simp [partWriters] at h ⊢

theorem stack_mem_partWriters {i : Instr} (h : .stack ∈ partWriters i) : ∃ nnn, i = .call nnn := by
  cases i <;> simp [partWriters] at h ⊢

/-- Every byte outside the `n` bytes from `I` reads in `t` as it does in `s`. -/
def KeepsBytesOutside (n : Nat) (s t : State) : Prop :=
  ∀ a, (a < s.baseAddress ∨ s.baseAddress + n ≤ a) → t.readByte a = s.readByte a

/-- An instruction that stores `n` bytes from `I`, under the bounds check, and then moves registers only. -/
theorem checkIndexed_keepsBytesOutside {n : Nat} {s t : State} {go : State → State} {bs : List Byte}
    (hlen : bs.length = n) (hgo : ∀ a, (go s).readByte a = (s.storeBytes s.baseAddress bs).readByte a)
    (ht : checkIndexed n s go = .next t) : KeepsBytesOutside n s t := by
  intro a ha
  obtain ⟨e, _⟩ | ⟨e, _⟩ := checkIndexed_cases n s go <;> rw [e] at ht <;> cases ht
  · rfl
  · rw [hgo, State.readByte_storeBytes_out s _ _ _ (hlen ▸ ha)]

theorem execLdBcd_keepsBytesOutside {x : Reg} {s t : State} (ht : execLdBcd x s = .next t) :
    KeepsBytesOutside 3 s t := by
  unfold execLdBcd at ht
  exact checkIndexed_keepsBytesOutside (bcdDigits_length (s.getV x)) (fun _ => rfl) ht

theorem execStoreRegs_keepsBytesOutside {x : Reg} {s t : State} (ht : execStoreRegs x s = .next t) :
    KeepsBytesOutside (x.val + 1) s t := by
  unfold execStoreRegs at ht
  exact checkIndexed_keepsBytesOutside (s.regBytes_length x) (fun _ => rfl) ht

theorem exec_keepsBytesOutside {i : Instr} {s t : State} (ht : exec i s = .next t) :
    KeepsBytesOutside (storeWidth i) s t := by
  by_cases hi : .memory ∈ partWriters i
  · obtain ⟨x, rfl | rfl⟩ := memory_mem_partWriters hi
    · exact execLdBcd_keepsBytesOutside ht
    · exact execStoreRegs_keepsBytesOutside ht
  · exact fun a _ => (exec_writesOnly i s t ht).2 .memory hi a

theorem execCall_keepsOtherEntries {nnn : Addr12} {s t : State} (ht : execCall nnn s = .next t) (k : Reg)
    (hk : k.val ≠ s.sp.val) : t.stack[k.val] = s.stack[k.val] := by
  unfold execCall at ht
  obtain ⟨j, e, hj⟩ | ⟨e, _⟩ := s.pushSlot_cases <;> rw [e] at ht <;> cases ht
  · exact Vector.getElem_set_ne j.isLt k.isLt (by omega)
  · rfl

theorem exec_keepsOtherEntries {i : Instr} {s t : State} (ht : exec i s = .next t) (k : Reg)
    (hk : k.val ≠ s.sp.val) : t.stack[k.val] = s.stack[k.val] := by
  by_cases hi : .stack ∈ partWriters i
  · obtain ⟨nnn, rfl⟩ := stack_mem_partWriters hi
    exact execCall_keepsOtherEntries ht k hk
  · exact (exec_writesOnly i s t ht).2 .stack hi k

/-- Settles O57: each instruction's updates are among its rows of the tables of writers, and of memory and stack only
FX33, FX55 and 2NNN write, in the places named. -/
theorem onlyNamedWriters : Obligations.OnlyNamedWriters := fun i s t ht =>
  ⟨exec_writesOnly i s t ht, exec_keepsBytesOutside ht, exec_keepsOtherEntries ht⟩

end Sys2Proof.Machine
end

