-- ==== Sys2Proof/Proofs/Invariant.lean ====
section
/-! PROOFS. Proofs/Invariant.lean: what each update of the state does to the machine's invariant, and from it that the
invariant holds at reset and every step keeps it (10_state.md R15, R16, R24; 60_exceptions.md R148). -/

namespace Sys2Proof.Machine

/-! ## Words as numbers -/

theorem toNat_add_le_add (a b : Word) : (a + b).toNat ≤ a.toNat + b.toNat := by
  rw [BitVec.toNat_add]
  exact Nat.mod_le _ _

theorem zextByte_toNat_lt (b : Byte) : (zextByte b).toNat < 256 := by
  rw [zextByte, BitVec.toNat_setWidth]
  exact Nat.lt_of_le_of_lt (Nat.mod_le _ _) b.isLt

theorem zextAddr_toNat_lt (nnn : Addr12) : (zextAddr nnn).toNat < 4096 := by
  rw [zextAddr, BitVec.toNat_setWidth]
  exact Nat.lt_of_le_of_lt (Nat.mod_le _ _) nnn.isLt

/-! ## One rule per update of the state -/

namespace State.Inv

variable {s : State}

/-- The invariant speaks of six fields: a state that agrees on them has it too. -/
theorem congr {t : State} (h : s.Inv) (hparams : t.params = s.params) (hmem : t.mem = s.mem) (hpc : t.pc = s.pc)
    (hstack : t.stack = s.stack) (hfault : t.fault = s.fault) (hresult : t.result = s.result) : t.Inv := by
  simpa only [State.Inv, hparams, hmem, hpc, hstack, hfault, hresult] using h

theorem setV (h : s.Inv) (r : Reg) (b : Byte) : (s.setV r b).Inv := h.congr rfl rfl rfl rfl rfl rfl
theorem setRegs (h : s.Inv) (v : Vector Byte 16) : ({ s with v := v } : State).Inv := h.congr rfl rfl rfl rfl rfl rfl
theorem setIndex (h : s.Inv) (w : Word) : (s.setIndex w).Inv := h.congr rfl rfl rfl rfl rfl rfl
theorem bumpIndex (h : s.Inv) (x : Reg) : (s.bumpIndex x).Inv := h.setIndex _
theorem setDt (h : s.Inv) (b : Byte) : (s.setDt b).Inv := h.congr rfl rfl rfl rfl rfl rfl
theorem setSt (h : s.Inv) (b : Byte) : (s.setSt b).Inv := h.congr rfl rfl rfl rfl rfl rfl
theorem setFb (h : s.Inv) (f : Frame) : (s.setFb f).Inv := h.congr rfl rfl rfl rfl rfl rfl
theorem emitFrame (h : s.Inv) : s.emitFrame.Inv := h.congr rfl rfl rfl rfl rfl rfl
theorem pop (h : s.Inv) (k : Reg) : (s.pop k).Inv := h.congr rfl rfl rfl rfl rfl rfl
theorem tick (h : s.Inv) : s.tick.Inv := h.congr rfl rfl rfl rfl rfl rfl

theorem setPc (h : s.Inv) {w : Word} (hw : w.toNat ≤ 0x10FE) : (s.setPc w).Inv := by
  obtain ⟨hmem, _, hrest⟩ := h
  exact ⟨hmem, hw, hrest⟩

/-- From a `pc` a word was fetched from, an instruction advances to 0x1002 at most. -/
theorem advance (h : s.Inv) (hpc : s.pc.toNat ≤ 4094) {n : Word} (hn : n.toNat ≤ 4) : (s.advance n).Inv :=
  h.setPc (by have := toNat_add_le_add s.pc n; omega)

/-- What a call pushes is a `pc` a word was fetched from. -/
theorem push (h : s.Inv) (k : Reg) {w : Word} (hw : w.toNat ≤ 4094) : (s.push k w).Inv := by
  obtain ⟨hmem, hpc, hstack, hresult⟩ := h
  refine ⟨hmem, hpc, fun j => ?_, hresult⟩
  rw [State.push_stack, Vector.getElem_set]
  split
  · exact hw
  · exact hstack j

theorem storeBytes (h : s.Inv) {a : Nat} {bs : List Byte} (ha : a + bs.length ≤ 4096) : (s.storeBytes a bs).Inv := by
  obtain ⟨hmem, hrest⟩ := h
  exact ⟨Memory.wf_store _ bs _ a ha hmem, hrest⟩

theorem setResult (h : s.Inv) {r : CycleResult} (hr : r ≠ .faulted) : ({ s with result := some r } : State).Inv := by
  obtain ⟨hmem, hpc, hstack, _⟩ := h
  exact ⟨hmem, hpc, hstack, fun e => absurd (Option.some.inj e) hr⟩

theorem beginCycle (h : s.Inv) (op : Word) : (s.beginCycle op).Inv :=
  (h.setResult (r := .normal) (by decide)).congr rfl rfl rfl rfl rfl rfl

theorem finishCycle (h : s.Inv) : s.finishCycle.Inv := by
  obtain ⟨e, _⟩ | ⟨e, _⟩ := s.finishCycle_cases <;> rw [e]
  · exact h.tick
  · exact h

end State.Inv

/-! ## The shared shapes of instructions -/

/-- Whatever next state `r` answers meets the invariant. -/
def MeetsInv (r : Result) : Prop := ∀ t, r = .next t → t.Inv

theorem meetsInv_next {t : State} (h : t.Inv) : MeetsInv (.next t) := by
  rintro _ ⟨⟩
  exact h

theorem haltedCycle_meetsInv {s : State} (h : s.Inv) (hfault : s.fault ≠ none) : MeetsInv (haltedCycle s) := by
  obtain ⟨hmem, hpc, hstack, _⟩ := h
  exact meetsInv_next ⟨hmem, hpc, hstack, fun _ => hfault⟩

/-- A Faulted cycle leaves a record latched: the new one, or the one that was there (R148, R149). -/
theorem raiseFault_meetsInv {s : State} (h : s.Inv) (f : Fault) : MeetsInv (raiseFault s f) := by
  obtain ⟨hmem, hpc, hstack, _⟩ := h
  exact meetsInv_next ⟨hmem, hpc, hstack, fun _ => by simp⟩

theorem checkIndexed_meetsInv {s : State} (h : s.Inv) (n : Nat) (go : State → State)
    (hgo : n = 0 ∨ s.index.toNat + n ≤ 4096 → (go s).Inv) : MeetsInv (checkIndexed n s go) := by
  obtain ⟨e, _⟩ | ⟨e, hbound⟩ := checkIndexed_cases n s go <;> rw [e]
  · exact raiseFault_meetsInv h _
  · exact meetsInv_next (hgo hbound)

theorem execRet_meetsInv {s : State} (h : s.Inv) : MeetsInv (execRet s) := by
  unfold execRet
  split
  · exact raiseFault_meetsInv h _
  · rename_i k _
    have ⟨_, _, hstack, _⟩ := h
    have htarget : (s.stack[k.val] + 2).toNat ≤ s.stack[k.val].toNat + 2 := toNat_add_le_add _ _
    exact meetsInv_next ((h.pop k).setPc (by have := hstack k; omega))

theorem execJp_meetsInv {s : State} (h : s.Inv) (nnn : Addr12) : MeetsInv (execJp nnn s) :=
  meetsInv_next (h.setPc (by have := zextAddr_toNat_lt nnn; omega))

/-- The largest target of BNNN is 0xFFF + 0xFF, the bound of R15. -/
theorem execJpV0_meetsInv {s : State} (h : s.Inv) (nnn : Addr12) : MeetsInv (execJpV0 nnn s) := by
  have hsum := toNat_add_le_add (zextAddr nnn) (zextByte (s.getV 0))
  have hbase := zextAddr_toNat_lt nnn
  have hoffset := zextByte_toNat_lt (s.getV 0)
  exact meetsInv_next (h.setPc (by omega))

/-! ## Instructions run where a word was fetched -/

section

variable {s : State} (h : s.Inv) (hpc : s.pc.toNat ≤ 4094)
include h hpc

theorem writeReg_meetsInv (x : Reg) (b : Byte) : MeetsInv (writeReg x b s) :=
  meetsInv_next ((h.setV x b).advance hpc (by decide))

theorem flagThenResult_meetsInv (x y : Reg) (flag : Byte) (op : Byte → Byte → Byte) :
    MeetsInv (flagThenResult x y flag op s) :=
  meetsInv_next (((h.setV vf flag).setV x _).advance hpc (by decide))

theorem skipIf_meetsInv (c : Bool) : MeetsInv (skipIf c s) :=
  meetsInv_next (h.advance hpc (by cases c <;> decide))

theorem skipIfKey_meetsInv (x : Reg) (level : Bool) : MeetsInv (skipIfKey x level s) := by
  unfold skipIfKey
  split
  · exact raiseFault_meetsInv h _
  · exact skipIf_meetsInv h hpc _

theorem execCall_meetsInv (nnn : Addr12) : MeetsInv (execCall nnn s) := by
  unfold execCall
  split
  · exact raiseFault_meetsInv h _
  · exact meetsInv_next ((h.push _ hpc).setPc (by have := zextAddr_toNat_lt nnn; omega))

theorem execDrw_meetsInv (x y : Reg) (n : Fin 16) : MeetsInv (execDrw x y n s) := by
  unfold execDrw
  split
  · exact raiseFault_meetsInv h _
  · dsimp only
    split
    · exact raiseFault_meetsInv h _
    · exact meetsInv_next ((((h.setV vf _).setFb _).emitFrame).advance hpc (by decide))

theorem execLdKey_meetsInv (x : Reg) : MeetsInv (execLdKey x s) := by
  unfold execLdKey
  split
  · exact writeReg_meetsInv h hpc x _
  · exact meetsInv_next (h.setResult (by decide))

theorem execRnd_meetsInv (x : Reg) (nn : Byte) : MeetsInv (execRnd x nn s) :=
  writeReg_meetsInv (s := { s with draws := s.draws + 1 }) (h.congr rfl rfl rfl rfl rfl rfl) hpc x _

theorem execAddIndex_meetsInv (x : Reg) : MeetsInv (execAddIndex x s) :=
  meetsInv_next (((h.setIndex (s.index + zextByte (s.getV x))).setV vf _).advance hpc (by decide))

theorem execLdFont_meetsInv (x : Reg) : MeetsInv (execLdFont x s) :=
  meetsInv_next ((h.setIndex _).advance hpc (by cases s.params.fx29PcDelta <;> decide))

theorem execLdBcd_meetsInv (x : Reg) : MeetsInv (execLdBcd x s) := by
  refine checkIndexed_meetsInv h _ _ fun hbound => (h.storeBytes ?_).advance hpc (by decide)
  rw [bcdDigits_length, State.baseAddress]
  omega

theorem execStoreRegs_meetsInv (x : Reg) : MeetsInv (execStoreRegs x s) := by
  refine checkIndexed_meetsInv h _ _ fun hbound => ((h.storeBytes ?_).bumpIndex x).advance hpc (by decide)
  rw [State.regBytes_length, State.baseAddress]
  omega

theorem execLoadRegs_meetsInv (x : Reg) : MeetsInv (execLoadRegs x s) := by
  have hregs := (h.setRegs (s.loadedRegs s.baseAddress x)).bumpIndex x
  exact checkIndexed_meetsInv h _ _ fun _ => hregs.advance hpc (by decide)

/-! ## Every instruction -/

theorem exec_meetsInv (i : Instr) : MeetsInv (exec i s) := by
  cases i with
  | ret => exact execRet_meetsInv h
  | jp nnn => exact execJp_meetsInv h nnn
  | jpV0 nnn => exact execJpV0_meetsInv h nnn
  | call nnn => exact execCall_meetsInv h hpc nnn
  | drw x y n => exact execDrw_meetsInv h hpc x y n
  | ldKey x => exact execLdKey_meetsInv h hpc x
  | addIndex x => exact execAddIndex_meetsInv h hpc x
  | rnd x nn => exact execRnd_meetsInv h hpc x nn
  | ldFont x => exact execLdFont_meetsInv h hpc x
  | ldBcd x => exact execLdBcd_meetsInv h hpc x
  | storeRegs x => exact execStoreRegs_meetsInv h hpc x
  | loadRegs x => exact execLoadRegs_meetsInv h hpc x
  | skp x | sknp x => exact skipIfKey_meetsInv h hpc x _
  | seImm | sneImm | seReg | sneReg => exact skipIf_meetsInv h hpc _
  | ldImm x | addImm x | ldReg x | orReg x | andReg x | xorReg x | ldVxDt x => exact writeReg_meetsInv h hpc x _
  | addReg x y | subReg x y | shr x y | subnReg x y | shl x y =>
    simp only [exec, execAddReg, execSubReg, execShr, execSubnReg, execShl]
    exact flagThenResult_meetsInv h hpc x y _ _
  | cls => exact meetsInv_next (((h.setFb 0).emitFrame).advance hpc (by decide))
  | ldIndex nnn => exact meetsInv_next ((h.setIndex _).advance hpc (by decide))
  | ldDtVx x => exact meetsInv_next ((h.setDt _).advance hpc (by decide))
  | ldStVx x => exact meetsInv_next ((h.setSt _).advance hpc (by decide))

end

/-! ## Every step, and reset -/

theorem State.pc_le_of_fetchWord {s : State} {op : Word} (h : s.fetchWord = .word op) : s.pc.toNat ≤ 4094 := by
  obtain ⟨e, _⟩ | ⟨_, hpc⟩ := s.fetchWord_cases
  · rw [e] at h
    cases h
  · exact hpc

theorem step_meetsInv {s : State} (h : s.Inv) : MeetsInv (step s) := by
  intro t ht
  obtain ⟨f, hfault, ht⟩ | ⟨_, _, _, ht⟩ | ⟨op, _, _, _, _, ht⟩ | ⟨op, i, u, _, hfetch, _, hu, rfl⟩ :=
    step_next_cases ht
  · exact haltedCycle_meetsInv h (by simp [hfault]) t ht
  · exact raiseFault_meetsInv h _ t ht
  · exact raiseFault_meetsInv (h.beginCycle op) _ t ht
  · exact (exec_meetsInv (h.beginCycle op) (State.pc_le_of_fetchWord hfetch) i u hu).finishCycle

/-- Settles O53: an instruction runs only where its word was fetched, at a `pc` of at most 4094, and from there each
update of the state keeps the invariant. -/
theorem stepKeepsInv : Obligations.StepKeepsInv := fun _ t h ht => step_meetsInv h t ht

theorem State.resetWith_inv (p : Params) : (State.resetWith p).Inv := by
  refine ⟨Memory.wf_reset p, by simp [State.resetWith], fun k => ?_, fun h => by cases h⟩
  simp [State.resetWith]

/-- Settles O52: `State.reset` is the reset state of the default parameters. -/
theorem invAtReset : Obligations.InvAtReset := ⟨State.resetWith_inv Params.default, State.resetWith_inv⟩

end Sys2Proof.Machine
end

