-- ==== Sys2Proof/Proofs/Noninterference.lean ====
section
/-! PROOFS. Proofs/Noninterference.lean: no instruction reads `current_opcode`, the sound timer, or a stack slot at or
above `sp` (10_state.md R16, R17, R20, R22). The idea: whether state that is not read is altered before an instruction
or after it makes no difference. -/

namespace Sys2Proof.Machine

/-! ## Altering state that is not read -/

/-- `s` with `current_opcode` altered by `code`, the sound timer by `sound` and the stack's entries by `slots`. -/
def State.alter (code : Word → Word) (sound : Byte → Byte) (slots : Vector Word 16 → Vector Word 16) (s : State) :
    State :=
  { s with currentOpcode := code s.currentOpcode, st := sound s.st, stack := slots s.stack }

/-- `g` applied to the next state a result answers. -/
def mapNext (g : State → State) : Result → Result
  | .next t => .next (g t)
  | .fault f => .fault f
  | .refused r => .refused r

section

variable (code : Word → Word) (sound : Byte → Byte) (slots : Vector Word 16 → Vector Word 16) (s : State)

@[simp] theorem State.alter_getV (r : Reg) : (s.alter code sound slots).getV r = s.getV r := rfl
@[simp] theorem State.alter_baseAddress : (s.alter code sound slots).baseAddress = s.baseAddress := rfl
@[simp] theorem State.alter_litPixels (x0 y0 n : Nat) :
    (s.alter code sound slots).litPixels x0 y0 n = s.litPixels x0 y0 n := rfl
@[simp] theorem State.alter_highestKey : (s.alter code sound slots).highestKey = s.highestKey := rfl
@[simp] theorem State.alter_pushSlot : (s.alter code sound slots).pushSlot = s.pushSlot := rfl
@[simp] theorem State.alter_popSlot : (s.alter code sound slots).popSlot = s.popSlot := rfl

/-! ## The instructions with a case split: each tests only what is not altered -/

theorem skipIfKey_alter (x : Reg) (level : Bool) :
    skipIfKey x level (s.alter code sound slots) = mapNext (State.alter code sound slots) (skipIfKey x level s) := by
  simp only [skipIfKey, State.alter_getV]
  cases keyOf (s.getV x) <;> rfl

theorem checkIndexed_alter (n : Nat) (go : State → State)
    (hgo : go (s.alter code sound slots) = (go s).alter code sound slots) :
    checkIndexed n (s.alter code sound slots) go = mapNext (State.alter code sound slots) (checkIndexed n s go) := by
  simp only [checkIndexed, State.alter_baseAddress, hgo]
  cases badAddress s.baseAddress n <;> rfl

theorem execDrw_alter (x y : Reg) (n : Fin 16) :
    execDrw x y n (s.alter code sound slots) = mapNext (State.alter code sound slots) (execDrw x y n s) := by
  simp only [execDrw, State.alter_baseAddress, State.alter_getV, State.alter_litPixels]
  cases badAddress s.baseAddress n.val
  · cases (s.litPixels (s.getV x).toNat (s.getV y).toNat n.val).find? offGrid <;> rfl
  · rfl

theorem execLdKey_alter (x : Reg) :
    execLdKey x (s.alter code sound slots) = mapNext (State.alter code sound slots) (execLdKey x s) := by
  simp only [execLdKey, State.alter_highestKey]
  cases s.highestKey <;> rfl

/-! ## The three instructions that touch the altered state -/

/-- 00EE reads one entry, the one below `sp`. -/
theorem execRet_alter (h : ∀ k, s.popSlot = some k → (slots s.stack)[k.val] = s.stack[k.val]) :
    execRet (s.alter code sound slots) = mapNext (State.alter code sound slots) (execRet s) := by
  simp only [execRet, State.alter_popSlot]
  cases hk : s.popSlot with
  | none => rfl
  | some k =>
    have hread : (s.alter code sound slots).stack[k.val] = s.stack[k.val] := h k hk
    simp only [hread]
    rfl

/-- 2NNN writes one entry, the one at `sp`, and reads none. -/
theorem execCall_alter (nnn : Addr12)
    (h : ∀ k, s.pushSlot = some k → (slots s.stack).set k.val s.pc = slots (s.stack.set k.val s.pc)) :
    execCall nnn (s.alter code sound slots) = mapNext (State.alter code sound slots) (execCall nnn s) := by
  simp only [execCall, State.alter_pushSlot]
  cases hk : s.pushSlot with
  | none => rfl
  | some k =>
    have hpush : (s.alter code sound slots).push k s.pc = (s.push k s.pc).alter code sound slots := by
      simp only [State.push, State.alter, h k hk]
    show Host.Outcome.next (((s.alter code sound slots).push k s.pc).setPc _) = _
    rw [hpush]
    rfl

/-- Every instruction commutes with an alteration that keeps the entry it pops, the entry it pushes and the value it
gives the sound timer. -/
theorem exec_alter (i : Instr) (hst : ∀ x, i = .ldStVx x → sound (s.getV x) = s.getV x)
    (hpop : ∀ k, s.popSlot = some k → (slots s.stack)[k.val] = s.stack[k.val])
    (hpush : ∀ nnn k, i = .call nnn → s.pushSlot = some k →
      (slots s.stack).set k.val s.pc = slots (s.stack.set k.val s.pc)) :
    exec i (s.alter code sound slots) = mapNext (State.alter code sound slots) (exec i s) := by
  cases i with
  | ret => exact execRet_alter code sound slots s hpop
  | call nnn => exact execCall_alter code sound slots s nnn fun k => hpush nnn k rfl
  | drw x y n => exact execDrw_alter code sound slots s x y n
  | ldKey x => exact execLdKey_alter code sound slots s x
  | skp x | sknp x => exact skipIfKey_alter code sound slots s x _
  | ldBcd | storeRegs | loadRegs =>
    simp only [exec, execLdBcd, execStoreRegs, execLoadRegs]
    exact checkIndexed_alter code sound slots s _ _ rfl
  | ldStVx x =>
    have hsame : ((s.setSt (s.getV x)).advance 2).alter code sound slots =
        ((s.alter code sound slots).setSt (s.getV x)).advance 2 := by
      simp only [State.alter, State.setSt, State.advance, State.setPc, hst x rfl]
    exact congrArg Host.Outcome.next hsame.symm
  | cls | jp | seImm | sneImm | seReg | sneReg | ldImm | addImm | ldReg | orReg | andReg | xorReg | addReg | subReg
  | shr | subnReg | shl | ldIndex | jpV0 | rnd | ldVxDt | ldDtVx | addIndex | ldFont => rfl

end

/-! ## The two statements -/

/-- Settles O59: FX18 gives the sound timer `V[X]` whatever it held; no other instruction reads or writes it. -/
theorem hiddenStateUnreadable : Obligations.HiddenStateUnreadable := by
  intro i s t op b ht
  by_cases hi : ∃ x, i = .ldStVx x
  · obtain ⟨x, rfl⟩ := hi
    cases ht
    exact ⟨s.getV x, rfl⟩
  · have h := exec_alter (fun _ => op) (fun _ => b) id s i (fun x e => absurd ⟨x, e⟩ hi) (fun _ _ => rfl)
      (fun _ _ _ _ => rfl)
    rw [ht] at h
    exact ⟨b, h⟩

/-- Two calls that differ in the stack's entries end in states that differ there alone. -/
theorem execCall_setStack (nnn : Addr12) {s t u : State} {stack : Vector Word 16} (ht : execCall nnn s = .next t)
    (hu : execCall nnn { s with stack := stack } = .next u) : u = { t with stack := u.stack } := by
  have hslot : ({ s with stack := stack } : State).pushSlot = s.pushSlot := rfl
  simp only [execCall, hslot] at ht hu
  obtain ⟨k, e, _⟩ | ⟨e, _⟩ := s.pushSlot_cases
  all_goals
    simp only [e] at ht hu
    cases ht
    cases hu
    rfl

/-- Settles O60: 2NNN may write the slot but reads none, 00EE reads a slot below `sp`, and no other instruction reads
the stack. -/
theorem staleSlotsUnreadable : Obligations.StaleSlotsUnreadable := by
  intro i s t u k w hk ht hu
  by_cases hi : ∃ nnn, i = .call nnn
  · obtain ⟨nnn, rfl⟩ := hi
    exact execCall_setStack nnn ht hu
  · have hpop : ∀ j, s.popSlot = some j → (s.stack.set k.val w)[j.val] = s.stack[j.val] := by
      intro j hj
      obtain ⟨j', e, hsp⟩ | ⟨e, _⟩ := s.popSlot_cases <;> rw [e] at hj <;> cases hj
      exact Vector.getElem_set_ne k.isLt j.isLt (by omega)
    have h := exec_alter id id (fun stack => stack.set k.val w) s i (fun _ _ => rfl) hpop
      (fun nnn _ e => absurd ⟨nnn, e⟩ hi)
    rw [ht] at h
    cases hu.symm.trans h
    rfl

end Sys2Proof.Machine
end

