-- ==== Sys2Proof/Proofs/ResetAndKeys.lean ====
section
/-! PROOFS. Proofs/ResetAndKeys.lean: what reset leaves, and what SetKey changes (10_state.md R10, R24;
60_exceptions.md R161; 70_reset_and_hazards.md R170, R171). -/

namespace Sys2Proof.Machine

/-! ## Memory after reset: FONT, then zeros -/

theorem Memory.background_font (font : Vector Byte 80) (a : Nat) (h : a < 80) :
    Memory.background font a = font[a] := by
  simp [Memory.background, h]

theorem Memory.background_zero (font : Vector Byte 80) (a : Nat) (h : 80 ≤ a) : Memory.background font a = 0 := by
  simp [Memory.background, h]

@[simp] theorem Frame.pixel_zero (x y : Nat) : Frame.pixel 0 x y = false := BitVec.getLsbD_zero

/-! ## Power-on and Construct -/

/-- Power-on and Construct leave the same state, but for the model's own records of draws and events. -/
theorem resetWith_of_powerOn_or_construct {p : Params} {t : State}
    (h : t = State.resetWith p ∨ ∃ s : State, s.params = p ∧ t = s.construct) :
    ∃ draws events, t = { State.resetWith p with draws := draws, events := events } := by
  obtain rfl | ⟨s, rfl, rfl⟩ := h
  · exact ⟨_, _, rfl⟩
  · exact ⟨_, _, rfl⟩

/-- Settles O51: nothing is listed in memory after reset, so every byte reads as its background. -/
theorem resetLeaves : Obligations.ResetLeaves := by
  intro p t h
  obtain ⟨draws, events, rfl⟩ := resetWith_of_powerOn_or_construct h
  refine ⟨fun r => ?_, Memory.background_font p.font, Memory.background_zero p.font, rfl, rfl, rfl, fun k => ?_, rfl,
    rfl, fun k => ?_, Frame.pixel_zero, rfl, rfl, rfl⟩
  · exact Vector.getElem_replicate r.isLt
  · exact Vector.getElem_replicate k.isLt
  · exact Vector.getElem_replicate k.isLt

/-! ## SetKey -/

/-- Settles O56: the keypad is sixteen entries, of which SetKey replaces one. -/
theorem setKeySets : Obligations.SetKeySets := by
  intro s k pressed
  refine ⟨Vector.getElem_set_self k.isLt, fun j hj => ?_, changesOnly_setKey s (by simp) k pressed⟩
  exact Vector.getElem_set_ne k.isLt j.isLt fun e => hj (Fin.ext e.symm)

end Sys2Proof.Machine
end

