-- ==== Sys2Proof/Proofs/MemoryAccess.lean ====
section
/-! PROOFS. Proofs/MemoryAccess.lean: the fetch, and the stores of FX33 and FX55, with their bounds check and with what
the next fetch sees of them (20_memory.md R32 to R36, R39; 43_index_memory.md R113, R114). -/

namespace Sys2Proof

/-! ## The words of the two storing instructions -/

/-- The statements write a word of format X as a number: its fixed digits first, then `X`. -/
theorem ofNat_eq_wordX (t hh : Nat) (x : Reg) : BitVec.ofNat 16 (4096 * t + hh + 256 * x.val) = wordX t x hh :=
  congrArg (BitVec.ofNat 16) (Nat.add_right_comm _ _ _)

/-- The fields of a word `FXhh` that the decoder tests, and `X`. -/
theorem wordX_F_fields (x : Reg) (hh : Nat) (hhh : hh < 256) :
    (wordX 0xF x hh).toNat = 0xF000 + 256 * x.val + hh ∧ (0xF000 + 256 * x.val + hh) / 4096 = 15 ∧
      (0xF000 + 256 * x.val + hh) % 256 = hh ∧ fieldX (wordX 0xF x hh) = x :=
  ⟨wordX_toNat 0xF x hh (by decide) hhh, by omega, by omega, fieldX_wordX 0xF x hh (by decide) hhh⟩

theorem decode_ldBcd (x : Reg) : decode (BitVec.ofNat 16 (0xF033 + 256 * x.val)) = .ok (.ldBcd x) := by
  obtain ⟨hn, htop, hbyte, hx⟩ := wordX_F_fields x 0x33 (by decide)
  rw [ofNat_eq_wordX 0xF 0x33, decode_eq _ _ _ _ _ hn htop rfl hbyte, hx, if_neg (by omega), if_neg (by omega)]
  rfl

theorem decode_storeRegs (x : Reg) : decode (BitVec.ofNat 16 (0xF055 + 256 * x.val)) = .ok (.storeRegs x) := by
  obtain ⟨hn, htop, hbyte, hx⟩ := wordX_F_fields x 0x55 (by decide)
  rw [ofNat_eq_wordX 0xF 0x55, decode_eq _ _ _ _ _ hn htop rfl hbyte, hx, if_neg (by omega), if_neg (by omega)]
  rfl

end Sys2Proof

namespace Sys2Proof.Machine

/-! ## The fetch (R32, R34, R36, R71) -/

theorem State.fetchWord_of_le {s : State} (h : s.pc.toNat ≤ 4094) :
    s.fetchWord = .word (wordOfBytes (s.readByte s.pc.toNat) (s.readByte (s.pc.toNat + 1))) := by
  obtain ⟨_, hpc⟩ | ⟨e, _⟩ := s.fetchWord_cases
  · omega
  · exact e

theorem State.fetchWord_of_gt {s : State} (h : 4094 < s.pc.toNat) :
    s.fetchWord = .outOfBounds (max s.pc.toNat 4096) := by
  obtain ⟨e, _⟩ | ⟨_, hpc⟩ := s.fetchWord_cases
  · exact e
  · omega

/-- Settles O6: a fetch that passes the bounds check answers the word its two bytes spell. -/
theorem fetchBigEndian : Obligations.FetchBigEndian := fun _ h =>
  ⟨_, State.fetchWord_of_le h, wordOfBytes_toNat _ _⟩

/-- A fetch out of bounds ends the cycle before `current_opcode` is written. -/
theorem step_of_fetchWord_outOfBounds {s : State} {a : Nat} (hfault : s.fault = none)
    (hfetch : s.fetchWord = .outOfBounds a) : step s = raiseFault s (.memoryOutOfBounds a) := by
  simp only [step, hfault, hfetch]

/-- Settles O9: the bounds check stops the cycle, which raises the fault from the state it began in. -/
theorem fetchOutOfBounds : Obligations.FetchOutOfBounds := by
  intro s hfault hpc
  obtain ⟨t, ht, hlatch, hresult, hframe⟩ := raiseFault_raised s (.memoryOutOfBounds (max s.pc.toNat 4096))
  refine ⟨t, ?_, hlatch hfault, hresult, hframe⟩
  rw [step_of_fetchWord_outOfBounds hfault (State.fetchWord_of_gt hpc), ht]

/-! ## An access through `I`: in bounds it goes on, beyond it raises a fault (R36, R116) -/

theorem checkIndexed_next {n : Nat} {s : State} (go : State → State) (h : s.index.toNat + n ≤ 4096) :
    checkIndexed n s go = .next (go s) := by
  obtain ⟨_, _, hbeyond⟩ | ⟨e, _⟩ := checkIndexed_cases n s go
  · omega
  · exact e

theorem checkIndexed_raised {n : Nat} {s : State} (go : State → State) (hn : 0 < n) (h : 4096 < s.index.toNat + n) :
    ∃ t, checkIndexed n s go = .next t ∧ raised (.memoryOutOfBounds (max s.index.toNat 4096)) s t := by
  obtain ⟨e, _⟩ | ⟨_, hbound⟩ := checkIndexed_cases n s go
  · rw [e]
    exact raiseFault_raised s _
  · omega

/-! ## FX33 (R113) -/

theorem exec_ldBcd_eq (x : Reg) (s : State) : exec (.ldBcd x) s =
    checkIndexed 3 s fun s => (s.storeBytes s.baseAddress (bcdDigits (s.getV x))).advance 2 := rfl

theorem exec_ldBcd_next {x : Reg} {s : State} (h : s.index.toNat + 2 ≤ 4095) :
    exec (.ldBcd x) s = .next ((s.storeBytes s.index.toNat (bcdDigits (s.getV x))).advance 2) := by
  rw [exec_ldBcd_eq, checkIndexed_next _ (by omega), State.baseAddress]

theorem exec_ldBcd_raised {x : Reg} {s : State} (h : s.index.toNat + 2 > 4095) :
    ∃ t, exec (.ldBcd x) s = .next t ∧ raised (.memoryOutOfBounds (max s.index.toNat 4096)) s t := by
  rw [exec_ldBcd_eq]
  exact checkIndexed_raised _ (by decide) (by omega)

/-- The digits of a byte are below 256, so each is stored as the number it is. -/
theorem bcdDigits_toNat (b : Byte) :
    (bcdDigits b).map BitVec.toNat = [b.toNat / 100, b.toNat / 10 % 10, b.toNat % 10] := by
  have := b.isLt
  simp only [bcdDigits, List.map_cons, List.map_nil, BitVec.toNat_ofNat, List.cons.injEq, and_true]
  omega

/-- What a byte of the three digits reads as after they are stored. -/
theorem readByte_storeBcd (s : State) (a k : Nat) (b : Byte) (hk : k < 3) :
    ((s.storeBytes a (bcdDigits b)).readByte (a + k)).toNat =
      [b.toNat / 100, b.toNat / 10 % 10, b.toNat % 10][k] := by
  rw [State.readByte_storeBytes_in s a k (bcdDigits b) hk]
  exact (List.getElem_map BitVec.toNat).symm.trans (List.getElem_of_eq (bcdDigits_toNat b) hk)

/-- Settles O39: three bytes are stored after the bounds check, and every other byte is outside the range stored. -/
theorem bcdStored : Obligations.BcdStored := by
  refine fun x s => ⟨decode_ldBcd x, fun h => ⟨_, exec_ldBcd_next h, ?_⟩, exec_ldBcd_raised⟩
  refine ⟨readByte_storeBcd s _ 0 _ (by decide), readByte_storeBcd s _ 1 _ (by decide),
    readByte_storeBcd s _ 2 _ (by decide), fun a ha => ?_, rfl, ?_⟩
  · exact State.readByte_storeBytes_out s _ a _ (by rw [bcdDigits_length]; omega)
  · exact (changesOnly_storeBytes s (by simp) _ _).trans (changesOnly_advance _ (by simp) 2)

/-! ## FX55 (R114) -/

theorem exec_storeRegs_eq (x : Reg) (s : State) : exec (.storeRegs x) s =
    checkIndexed (x.val + 1) s fun s =>
      ((s.storeBytes s.baseAddress (s.regBytes x)).bumpIndex x).advance 2 := rfl

theorem exec_storeRegs_next {x : Reg} {s : State} (h : s.index.toNat + x.val ≤ 4095) :
    exec (.storeRegs x) s = .next (((s.storeBytes s.index.toNat (s.regBytes x)).bumpIndex x).advance 2) := by
  rw [exec_storeRegs_eq, checkIndexed_next _ (by omega), State.baseAddress]

theorem exec_storeRegs_raised {x : Reg} {s : State} (h : s.index.toNat + x.val > 4095) :
    ∃ t, exec (.storeRegs x) s = .next t ∧ raised (.memoryOutOfBounds (max s.index.toNat 4096)) s t := by
  rw [exec_storeRegs_eq]
  exact checkIndexed_raised _ (by omega) (by omega)

theorem readByte_storeRegBytes (s : State) (a : Nat) {x k : Reg} (hk : k ≤ x) :
    (s.storeBytes a (s.regBytes x)).readByte (a + k.val) = s.getV k := by
  have hlen : k.val < (s.regBytes x).length := by
    rw [State.regBytes_length]
    exact Nat.lt_succ_of_le hk
  rw [State.readByte_storeBytes_in s a k.val _ hlen, State.regBytes_get]

/-- In bounds the post-increment does not wrap (R116). -/
theorem State.bumpIndex_toNat {s : State} {x : Reg} (h : s.index.toNat + x.val ≤ 4095) :
    (s.bumpIndex x).index.toNat = s.index.toNat + x.val + 1 := by
  rw [State.bumpIndex_index, BitVec.toNat_add, BitVec.toNat_ofNat]
  omega

/-- Settles O40: the bytes of `V[0]` to `V[X]` are stored after the bounds check, and every other byte is outside the
range stored. -/
theorem registersStored : Obligations.RegistersStored := by
  refine fun x s => ⟨decode_storeRegs x, fun h => ⟨_, exec_storeRegs_next h, ?_⟩, exec_storeRegs_raised⟩
  refine ⟨fun _ => readByte_storeRegBytes s _, fun a ha => ?_, State.bumpIndex_toNat h, rfl, ?_⟩
  · exact State.readByte_storeBytes_out s _ a _ (by rw [State.regBytes_length]; omega)
  · exact ((changesOnly_storeBytes s (by simp) _ _).trans (changesOnly_setIndex _ (by simp) _)).trans
      (changesOnly_advance _ (by simp) 2)

/-! ## Code that was stored (R39) -/

/-- When an instruction leaves memory that reads as `b`, the next fetch from any `pc` in bounds sees `b`. -/
theorem fetchWord_after_exec {i : Instr} {s t : State} {pc : Word} {b : Nat → Byte} (hpc : pc.toNat ≤ 4094)
    (ht : exec i s = .next t) (hb : ∀ a, t.readByte a = b a) :
    ∃ t op, exec i s = .next t ∧ State.fetchWord { t with pc := pc } = .word op ∧
      op.toNat = 256 * (b pc.toNat).toNat + (b (pc.toNat + 1)).toNat := by
  obtain ⟨op, hop, hval⟩ := fetchBigEndian (t.setPc pc) hpc
  simp only [State.setPc_readByte, State.setPc_pc, hb] at hval
  exact ⟨t, op, ht, hop, hval⟩

/-- Settles O42: after each store memory reads as `b` at every address, by the statements about FX55 and FX33, so the
fetch sees `b` too. -/
theorem storedCodeIsFetched : Obligations.StoredCodeIsFetched := by
  refine fun x s pc b hpc => ⟨fun hbound hin hout => ?_, fun hbound hhundreds htens hunits hout => ?_⟩
  · obtain ⟨t, ht, htin, htout, _⟩ := (registersStored x s).2.1 hbound
    refine fetchWord_after_exec hpc ht fun a => ?_
    by_cases ha : s.index.toNat ≤ a ∧ a ≤ s.index.toNat + x.val
    · obtain ⟨k, rfl⟩ := Nat.exists_eq_add_of_le ha.1
      have hk : k ≤ x.val := by omega
      have hlt : k < 16 := by omega
      exact (htin ⟨k, hlt⟩ hk).trans (hin ⟨k, hlt⟩ hk).symm
    · rw [htout a (by omega), hout a (by omega)]
  · obtain ⟨t, ht, hthundreds, httens, htunits, htout, _⟩ := (bcdStored x s).2.1 hbound
    refine fetchWord_after_exec hpc ht fun a => ?_
    by_cases ha : s.index.toNat ≤ a ∧ a ≤ s.index.toNat + 2
    · apply BitVec.eq_of_toNat_eq
      obtain rfl | rfl | rfl : a = s.index.toNat ∨ a = s.index.toNat + 1 ∨ a = s.index.toNat + 2 := by omega
      · rw [hthundreds, hhundreds]
      · rw [httens, htens]
      · rw [htunits, hunits]
    · rw [htout a (by omega), hout a (by omega)]

end Sys2Proof.Machine
end

