-- ==== Sys2Proof/Proofs/HostMoves.lean ====
section
/-! PROOFS. Proofs/HostMoves.lean: what LoadProgram does with an image that fits and with one that does not, and that
the host's moves keep the machine's invariant (20_memory.md R41; 60_exceptions.md R142, R149, R157, R160). -/

namespace Sys2Proof.Machine

/-! ## LoadProgram -/

section

variable {bytes : List Byte}

theorem loadFits_of_le (h : bytes.length ≤ 3584) : loadFits bytes = true := decide_eq_true h

theorem loadFits_of_gt (h : 3584 < bytes.length) : loadFits bytes = false := decide_eq_false (by omega)

theorem State.loadProgram_of_le (s : State) (h : bytes.length ≤ 3584) :
    s.loadProgram bytes = s.storeBytes 512 bytes := by
  simp only [State.loadProgram, loadFits_of_le h, if_true]

theorem State.loadProgram_of_gt (s : State) (h : 3584 < bytes.length) :
    s.loadProgram bytes = s.latch (.loadError .capacityExceeded bytes.length) := by
  simp [State.loadProgram, loadFits_of_gt h]

theorem loadReport_of_le (h : bytes.length ≤ 3584) : loadReport bytes = none := by
  simp only [loadReport, loadFits_of_le h, if_true]

theorem loadReport_of_gt (h : 3584 < bytes.length) :
    loadReport bytes = some (.loadError .capacityExceeded bytes.length) := by
  simp [loadReport, loadFits_of_gt h]

end

/-- Settles O55: an image that fits is one store at 512, and one that does not is one latch of LoadError. -/
theorem loadProgramCopies : Obligations.LoadProgramCopies := by
  refine fun s bytes => ⟨fun h => ?_, fun h => ?_⟩
  · rw [State.loadProgram_of_le s h]
    exact ⟨loadReport_of_le h, fun k hk => State.readByte_storeBytes_in s 512 k bytes hk,
      fun a ha => State.readByte_storeBytes_out s 512 a bytes ha, changesOnly_storeBytes s (by simp) 512 bytes⟩
  · rw [State.loadProgram_of_gt s h]
    exact ⟨loadReport_of_gt h, fun hnone => by simp [hnone], fun f hf => by simp [hf],
      changesOnly_latch s (by simp) _⟩

/-! ## The invariant -/

namespace State.Inv

variable {s : State}

theorem setKey (h : s.Inv) (k : Reg) (pressed : Bool) : (s.setKey k pressed).Inv := h.congr rfl rfl rfl rfl rfl rfl

theorem construct (s : State) : s.construct.Inv := (State.resetWith_inv s.params).congr rfl rfl rfl rfl rfl rfl

/-- After a latch some fault is latched, whatever the latest cycle was. -/
theorem latch (h : s.Inv) (f : Fault) : (s.latch f).Inv := by
  obtain ⟨hmem, hpc, hstack, _⟩ := h
  exact ⟨hmem, hpc, hstack, fun _ => by simp⟩

/-- An image that fits ends at 4096, so storing it keeps memory canonical (R41). -/
theorem loadProgram (h : s.Inv) (bytes : List Byte) : (s.loadProgram bytes).Inv := by
  by_cases hfits : bytes.length ≤ 3584
  · rw [State.loadProgram_of_le s hfits]
    exact h.storeBytes (by omega)
  · rw [State.loadProgram_of_gt s (by omega)]
    exact h.latch _

end State.Inv

/-- Settles O54: Construct leaves a reset state; LoadProgram and SetKey are updates that keep the invariant. -/
theorem hostKeepsInv : Obligations.HostKeepsInv := by
  intro m s t hm h ht
  cases m with
  | construct => cases ht; exact State.Inv.construct s
  | loadProgram bytes => cases ht; exact h.loadProgram bytes
  | setKey k pressed => cases ht; exact h.setKey k pressed
  | executeCycle => exact absurd rfl hm

end Sys2Proof.Machine
end

