-- ==== Sys2Proof/Proofs/Encoding.lean ====
section
/-! PROOFS. Proofs/Encoding.lean: the rows of the opcode map are disjoint, so a word decodes to an instruction exactly
when it is the word of that instruction; and these words are all but the list of unknown encodings (30_encoding.md R51
to R56). -/

namespace Sys2Proof

/-! ## The rows are disjoint (R54, R55) -/

/-- Every two rows ask for different bits under both their masks. -/
theorem rows_clash :
    rows.Pairwise fun r1 r2 => r1.pattern &&& r2.mask ≠ r2.pattern &&& r1.mask := by
  decide

/-- Settles O4: a word that matched two rows would have both patterns under both masks. -/
theorem rowsDisjoint : Obligations.RowsDisjoint := by
  refine rows_clash.imp fun {r1 r2} hclash op ⟨h1, h2⟩ => hclash ?_
  rw [← h1, ← h2, BitVec.and_assoc, BitVec.and_assoc, BitVec.and_comm r1.mask]

theorem Row.accepts_iff (r : Row) (op : Word) : r.accepts op = true ↔ op &&& r.mask = r.pattern := beq_iff_eq

/-- The row that accepts a word is the one the decoder finds. -/
theorem find_rows_eq_some_iff (op : Word) (r : Row) :
    rows.find? (fun r => r.accepts op) = some r ↔ r ∈ rows ∧ r.accepts op = true := by
  refine ⟨fun h => ⟨List.mem_of_find?_eq_some h, List.find?_some (p := fun r : Row => r.accepts op) h⟩, ?_⟩
  rintro ⟨hmem, haccepts⟩
  obtain ⟨before, after, hsplit⟩ := List.append_of_mem hmem
  have hdisjoint := rowsDisjoint
  rw [Obligations.RowsDisjoint, hsplit, List.pairwise_append] at hdisjoint
  obtain ⟨_, _, hbefore⟩ := hdisjoint
  refine List.find?_eq_some_iff_append.2 ⟨haccepts, before, after, hsplit, fun r' hr' => ?_⟩
  have := hbefore r' hr' r (by simp) op
  simp only [← Row.accepts_iff] at this
  simpa [haccepts] using this

/-! ## What each mask tests (R54) -/

section

variable {r : Row} {op : Word} {t l : Nat}

theorem Row.accepts_top_iff (hmask : r.mask = 0xF000#16) (hpattern : r.pattern.toNat = 4096 * t) :
    r.accepts op = true ↔ op.toNat / 4096 = t := by
  rw [Row.accepts_eq, hmask, hpattern, toNat_and_top, decide_eq_true_iff]
  omega

theorem Row.accepts_top_low_iff (hmask : r.mask = 0xF00F#16) (hpattern : r.pattern.toNat = 4096 * t + l)
    (hl : l < 16) : r.accepts op = true ↔ op.toNat / 4096 = t ∧ op.toNat % 16 = l := by
  rw [Row.accepts_eq, hmask, hpattern, toNat_and_top_low, decide_eq_true_iff]
  omega

theorem Row.accepts_top_byte_iff (hmask : r.mask = 0xF0FF#16) (hpattern : r.pattern.toNat = 4096 * t + l)
    (hl : l < 256) : r.accepts op = true ↔ op.toNat / 4096 = t ∧ op.toNat % 256 = l := by
  rw [Row.accepts_eq, hmask, hpattern, toNat_and_top_byte, decide_eq_true_iff]
  omega

theorem Row.accepts_all_iff (hmask : r.mask = 0xFFFF#16) : r.accepts op = true ↔ op = r.pattern := by
  rw [Row.accepts_eq, hmask, toNat_and_all, decide_eq_true_iff, BitVec.toNat_inj]

end

/-! ## The row of an instruction -/

theorem ctorIdx_lt_rows (i : Instr) : i.ctorIdx < rows.length := by
  cases i <;> exact Nat.le_of_ble_eq_true rfl

/-- The row of an instruction: the opcode map lists the rows in the order of the constructors. -/
def rowOf (i : Instr) : Row := rows[i.ctorIdx]'(ctorIdx_lt_rows i)

theorem rows_build_ctorIdx (op : Word) :
    rows.map (fun r => (r.build op).ctorIdx) = List.range rows.length := rfl

/-- A row builds instructions whose row it is. -/
theorem rowOf_build {r : Row} (hr : r ∈ rows) (op : Word) : rowOf (r.build op) = r := by
  obtain ⟨k, hk, rfl⟩ := List.getElem_of_mem hr
  have hidx : (rows[k].build op).ctorIdx = k := by
    have h := List.getElem_of_eq (rows_build_ctorIdx op) (i := k) (by simpa using hk)
    rwa [List.getElem_map, List.getElem_range] at h
  simp only [rowOf, hidx]

/-- A word decodes to an instruction when the instruction's row accepts the word and builds the instruction from it. -/
theorem decode_eq_ok_iff_rowOf (op : Word) (i : Instr) :
    decode op = .ok i ↔ (rowOf i).accepts op = true ∧ (rowOf i).build op = i := by
  constructor
  · intro h
    unfold decode at h
    split at h
    · rename_i r hfind
      obtain ⟨hmem, haccepts⟩ := (find_rows_eq_some_iff op r).1 hfind
      cases h
      rw [rowOf_build hmem]
      exact ⟨haccepts, rfl⟩
    · cases h
  · rintro ⟨haccepts, hbuild⟩
    have hmem : rowOf i ∈ rows := List.getElem_mem _
    simp only [decode, (find_rows_eq_some_iff op _).2 ⟨hmem, haccepts⟩, hbuild]

/-! ## The formats: a word is of the format when its digits and its fields are as given (R51, R53) -/

section

variable {t : Nat} (ht : t < 16) (op : Word)
include ht

theorem eq_wordNNN_iff (nnn : Addr12) : op = wordNNN t nnn ↔ op.toNat / 4096 = t ∧ fieldNNN op = nnn := by
  have := nnn.isLt
  rw [← BitVec.toNat_inj, ← BitVec.toNat_inj, wordNNN_toNat t nnn ht, fieldNNN_toNat]
  omega

theorem eq_wordXNN_iff (x : Reg) (nn : Byte) :
    op = wordXNN t x nn ↔ op.toNat / 4096 = t ∧ fieldX op = x ∧ fieldNN op = nn := by
  have := nn.isLt
  have := x.isLt
  rw [← BitVec.toNat_inj, ← BitVec.toNat_inj, Fin.ext_iff, wordXNN_toNat t x nn ht, fieldX_val, fieldNN_toNat]
  omega

theorem eq_wordXYN_iff (x y : Reg) (n : Fin 16) : op = wordXYN t x y n ↔
    op.toNat / 4096 = t ∧ op.toNat % 16 = n.val ∧ fieldX op = x ∧ fieldY op = y := by
  have := x.isLt
  have := y.isLt
  have := n.isLt
  rw [← BitVec.toNat_inj, Fin.ext_iff, Fin.ext_iff, wordXYN_toNat t x y n ht, fieldX_val, fieldY_val]
  omega

theorem eq_wordX_iff (x : Reg) {hh : Nat} (hhh : hh < 256) : op = wordX t x hh ↔
    op.toNat / 4096 = t ∧ op.toNat % 256 = hh ∧ fieldX op = x := by
  have := x.isLt
  rw [← BitVec.toNat_inj, Fin.ext_iff, wordX_toNat t x hh ht hhh, fieldX_val]
  omega

end

/-! ## Decoding, one rule per format and mask -/

section

variable {i : Instr} {t : Nat} {op : Word}

/-- Mask 0xF000, format NNN: the top nibble and one literal. -/
theorem decode_iff_wordNNN {nnn : Addr12} (ht : t < 16) (hmask : (rowOf i).mask = 0xF000#16)
    (hpattern : (rowOf i).pattern.toNat = 4096 * t) (hbuild : (rowOf i).build op = i ↔ fieldNNN op = nnn) :
    decode op = .ok i ↔ op = wordNNN t nnn := by
  rw [decode_eq_ok_iff_rowOf, hbuild, eq_wordNNN_iff ht, Row.accepts_top_iff hmask hpattern]

theorem decode_iff_wordXNN {x : Reg} {nn : Byte} (ht : t < 16) (hmask : (rowOf i).mask = 0xF000#16)
    (hpattern : (rowOf i).pattern.toNat = 4096 * t)
    (hbuild : (rowOf i).build op = i ↔ fieldX op = x ∧ fieldNN op = nn) :
    decode op = .ok i ↔ op = wordXNN t x nn := by
  rw [decode_eq_ok_iff_rowOf, hbuild, eq_wordXNN_iff ht, Row.accepts_top_iff hmask hpattern]

/-- Mask 0xF00F, format XY: the top and the low nibble and two registers. -/
theorem decode_iff_wordXYN {x y : Reg} {n : Fin 16} (ht : t < 16) (hmask : (rowOf i).mask = 0xF00F#16)
    (hpattern : (rowOf i).pattern.toNat = 4096 * t + n.val)
    (hbuild : (rowOf i).build op = i ↔ fieldX op = x ∧ fieldY op = y) :
    decode op = .ok i ↔ op = wordXYN t x y n := by
  rw [decode_eq_ok_iff_rowOf, hbuild, eq_wordXYN_iff ht, Row.accepts_top_low_iff hmask hpattern n.isLt, and_assoc]

/-- Mask 0xF000, format XYN: `N` is an operand, not part of the pattern. -/
theorem decode_iff_drw (x y : Reg) (n : Fin 16) : decode op = .ok (.drw x y n) ↔ op = wordXYN 0xD x y n := by
  have hbuild : (rowOf (.drw x y n)).build op = .drw x y n ↔ fieldX op = x ∧ fieldY op = y ∧ fieldN op = n :=
    iff_of_eq (Instr.drw.injEq ..)
  rw [decode_eq_ok_iff_rowOf, hbuild, eq_wordXYN_iff (by decide), Row.accepts_top_iff (t := 0xD) rfl rfl,
    Fin.ext_iff (a := fieldN op), fieldN_val]
  tauto

/-- Mask 0xF0FF, format X: the top nibble, the low byte and one register. -/
theorem decode_iff_wordX {x : Reg} {hh : Nat} (ht : t < 16) (hhh : hh < 256) (hmask : (rowOf i).mask = 0xF0FF#16)
    (hpattern : (rowOf i).pattern.toNat = 4096 * t + hh) (hbuild : (rowOf i).build op = i ↔ fieldX op = x) :
    decode op = .ok i ↔ op = wordX t x hh := by
  rw [decode_eq_ok_iff_rowOf, hbuild, eq_wordX_iff ht op x hhh, Row.accepts_top_byte_iff hmask hpattern hhh, and_assoc]

end

/-! ## The decoder and the encoder agree -/

/-- Each format's rule, applied to the instructions of that format. -/
theorem decode_eq_ok_iff (op : Word) (i : Instr) : decode op = .ok i ↔ op = encode i := by
  cases i with
  | cls | ret => exact (decode_eq_ok_iff_rowOf op _).trans ((and_iff_left rfl).trans (Row.accepts_all_iff rfl))
  | jp nnn | call nnn | ldIndex nnn | jpV0 nnn =>
    exact decode_iff_wordNNN (by decide) rfl rfl ⟨by rintro ⟨⟩; rfl, by rintro rfl; rfl⟩
  | seImm x nn | sneImm x nn | ldImm x nn | addImm x nn | rnd x nn =>
    exact decode_iff_wordXNN (by decide) rfl rfl ⟨by rintro ⟨⟩; exact ⟨rfl, rfl⟩, by rintro ⟨rfl, rfl⟩; rfl⟩
  | seReg x y | ldReg x y | orReg x y | andReg x y | xorReg x y | addReg x y | subReg x y | shr x y | subnReg x y
  | shl x y | sneReg x y =>
    exact decode_iff_wordXYN (by decide) rfl rfl ⟨by rintro ⟨⟩; exact ⟨rfl, rfl⟩, by rintro ⟨rfl, rfl⟩; rfl⟩
  | drw x y n => exact decode_iff_drw x y n
  | skp x | sknp x | ldVxDt x | ldKey x | ldDtVx x | ldStVx x | addIndex x | ldFont x | ldBcd x | storeRegs x
  | loadRegs x =>
    exact decode_iff_wordX (by decide) (by decide) rfl rfl ⟨by rintro ⟨⟩; rfl, by rintro rfl; rfl⟩

/-- Settles O2: among the words that decode to an instruction is its own. -/
theorem decodeEncode : Obligations.DecodeEncode := fun i => (decode_eq_ok_iff _ i).2 rfl

/-- Settles O3: no other word decodes to an instruction. -/
theorem encodeDecode : Obligations.EncodeDecode := fun op i h => ((decode_eq_ok_iff op i).1 h).symm

/-! ## The words that decode (R56) -/

theorem knownWord_encode (i : Instr) : knownWord (encode i) = true := by
  cases i with
  | cls | ret => rfl
  | jp nnn | call nnn | ldIndex nnn | jpV0 nnn =>
    exact Laws.KnownWord.of_wordNNN _ nnn (by decide) fun _ _ _ => rfl
  | seImm x nn | sneImm x nn | ldImm x nn | addImm x nn | rnd x nn =>
    exact Laws.KnownWord.of_wordXNN _ x nn (by decide) fun _ _ _ => rfl
  | seReg x y | ldReg x y | orReg x y | andReg x y | xorReg x y | addReg x y | subReg x y | shr x y | subnReg x y
  | shl x y | sneReg x y | drw x y =>
    exact Laws.KnownWord.of_wordXYN _ x y _ (by decide) fun _ _ => rfl
  | skp x | sknp x | ldVxDt x | ldKey x | ldDtVx x | ldStVx x | addIndex x | ldFont x | ldBcd x | storeRegs x
  | loadRegs x =>
    exact Laws.KnownWord.of_wordX _ x _ (by decide) (by decide) fun _ _ => rfl

section

variable {op : Word}

theorem exists_encode_of_group0 (h : knownGroup0 op.toNat = true) : ∃ i, op = encode i := by
  obtain h | h : op.toNat = 0x00E0 ∨ op.toNat = 0x00EE := by simpa [knownGroup0] using h
  · exact ⟨.cls, BitVec.eq_of_toNat_eq h⟩
  · exact ⟨.ret, BitVec.eq_of_toNat_eq h⟩

/-- A word of a known top and low nibble is the word of the instruction with the word's own `X` and `Y`. -/
theorem eq_wordXYN_fields {t : Nat} {n : Fin 16} (ht : t < 16) (htop : op.toNat / 4096 = t)
    (hlow : op.toNat % 16 = n.val) : op = wordXYN t (fieldX op) (fieldY op) n :=
  (eq_wordXYN_iff ht op _ _ _).2 ⟨htop, hlow, rfl, rfl⟩

theorem exists_encode_of_group8 (htop : op.toNat / 4096 = 8) (h : knownGroup8 (op.toNat % 16) = true) :
    ∃ i, op = encode i := by
  have hword := fun n : Fin 16 => eq_wordXYN_fields (op := op) (n := n) (by decide) htop
  simp only [knownGroup8, List.contains_iff_mem, List.mem_cons, List.not_mem_nil, or_false] at h
  rcases h with h | h | h | h | h | h | h | h | h
  · exact ⟨.ldReg _ _, hword 0x0 h⟩
  · exact ⟨.orReg _ _, hword 0x1 h⟩
  · exact ⟨.andReg _ _, hword 0x2 h⟩
  · exact ⟨.xorReg _ _, hword 0x3 h⟩
  · exact ⟨.addReg _ _, hword 0x4 h⟩
  · exact ⟨.subReg _ _, hword 0x5 h⟩
  · exact ⟨.shr _ _, hword 0x6 h⟩
  · exact ⟨.subnReg _ _, hword 0x7 h⟩
  · exact ⟨.shl _ _, hword 0xE h⟩

/-- A word of a known top nibble and low byte is the word of the instruction with the word's own `X`. -/
theorem eq_wordX_fields {t hh : Nat} (ht : t < 16) (hhh : hh < 256) (htop : op.toNat / 4096 = t)
    (hbyte : op.toNat % 256 = hh) : op = wordX t (fieldX op) hh :=
  (eq_wordX_iff ht op _ hhh).2 ⟨htop, hbyte, rfl⟩

theorem exists_encode_of_groupE (htop : op.toNat / 4096 = 0xE) (h : knownGroupE (op.toNat % 256) = true) :
    ∃ i, op = encode i := by
  obtain h | h : op.toNat % 256 = 0x9E ∨ op.toNat % 256 = 0xA1 := by simpa [knownGroupE] using h
  · exact ⟨.skp _, eq_wordX_fields (by decide) (by decide) htop h⟩
  · exact ⟨.sknp _, eq_wordX_fields (by decide) (by decide) htop h⟩

theorem exists_encode_of_groupF (htop : op.toNat / 4096 = 0xF) (h : knownGroupF (op.toNat % 256) = true) :
    ∃ i, op = encode i := by
  have hword := fun (hh : Nat) (hhh : hh < 256) => eq_wordX_fields (op := op) (by decide) hhh htop
  simp only [knownGroupF, List.contains_iff_mem, List.mem_cons, List.not_mem_nil, or_false] at h
  rcases h with h | h | h | h | h | h | h | h | h
  · exact ⟨.ldVxDt _, hword 0x07 (by decide) h⟩
  · exact ⟨.ldKey _, hword 0x0A (by decide) h⟩
  · exact ⟨.ldDtVx _, hword 0x15 (by decide) h⟩
  · exact ⟨.ldStVx _, hword 0x18 (by decide) h⟩
  · exact ⟨.addIndex _, hword 0x1E (by decide) h⟩
  · exact ⟨.ldFont _, hword 0x29 (by decide) h⟩
  · exact ⟨.ldBcd _, hword 0x33 (by decide) h⟩
  · exact ⟨.storeRegs _, hword 0x55 (by decide) h⟩
  · exact ⟨.loadRegs _, hword 0x65 (by decide) h⟩

theorem exists_encode_of_knownWord (h : knownWord op = true) : ∃ i, op = encode i := by
  have hNNN := fun (t : Nat) (ht : t < 16) htop => (eq_wordNNN_iff ht op _).2 ⟨htop, rfl⟩
  have hXNN := fun (t : Nat) (ht : t < 16) htop => (eq_wordXNN_iff ht op _ _).2 ⟨htop, rfl, rfl⟩
  have hlow : knownGroup59 (op.toNat % 16) = true → op.toNat % 16 = 0 := by simp [knownGroup59]
  have hlt : op.toNat / 4096 < 16 := by have := op.isLt; omega
  unfold knownWord at h
  generalize htop : op.toNat / 4096 = t at h hlt
  interval_cases t
  · exact exists_encode_of_group0 h
  · exact ⟨.jp _, hNNN _ (by decide) htop⟩
  · exact ⟨.call _, hNNN _ (by decide) htop⟩
  · exact ⟨.seImm _ _, hXNN _ (by decide) htop⟩
  · exact ⟨.sneImm _ _, hXNN _ (by decide) htop⟩
  · exact ⟨.seReg _ _, eq_wordXYN_fields (by decide) htop (hlow h)⟩
  · exact ⟨.ldImm _ _, hXNN _ (by decide) htop⟩
  · exact ⟨.addImm _ _, hXNN _ (by decide) htop⟩
  · exact exists_encode_of_group8 htop h
  · exact ⟨.sneReg _ _, eq_wordXYN_fields (by decide) htop (hlow h)⟩
  · exact ⟨.ldIndex _, hNNN _ (by decide) htop⟩
  · exact ⟨.jpV0 _, hNNN _ (by decide) htop⟩
  · exact ⟨.rnd _ _, hXNN _ (by decide) htop⟩
  · exact ⟨.drw _ _ _, eq_wordXYN_fields (by decide) htop (fieldN_val op).symm⟩
  · exact exists_encode_of_groupE htop h
  · exact exists_encode_of_groupF htop h

end

/-- Settles O5: the words that decode and the words R56 does not list are both the words of the instructions. -/
theorem unknownWords : Obligations.UnknownWords := by
  intro op
  constructor
  · rintro ⟨i, h⟩
    rw [(decode_eq_ok_iff op i).1 h]
    exact knownWord_encode i
  · intro h
    obtain ⟨i, rfl⟩ := exists_encode_of_knownWord h
    exact ⟨i, decodeEncode i⟩

/-- A word in the list of R56 is rejected by name (R54). -/
theorem decode_eq_error {op : Word} (h : knownWord op = false) : decode op = .error (.unknownOpcode op) := by
  have hrejected : ¬ ∃ i, decode op = .ok i := by simp [unknownWords op, h]
  cases hfind : rows.find? fun r => r.accepts op with
  | none => simp only [decode, hfind]
  | some r => exact absurd ⟨r.build op, by simp only [decode, hfind]⟩ hrejected

/-- Settles O1: each word is the encoder's for its instruction, and 0x0001 is in the list of R56. -/
theorem specWordsDecode : Obligations.SpecWordsDecode :=
  ⟨decodeEncode .cls, decodeEncode (.call 0x210), decodeEncode (.ldImm 10 0x2F), decodeEncode (.seImm 1 0),
    decodeEncode (.shr 4 10), decodeEncode (.drw 0 1 1), decodeEncode (.sknp 5), decodeEncode (.loadRegs 2),
    decode_eq_error (by decide)⟩

end Sys2Proof
end

