-- ==== Sys2Proof/Proofs/StrictDecode.lean ====
section
/-! PROOFS. Proofs/StrictDecode.lean: what a cycle does with an unknown word, and the skips on two registers, whose
words are unknown unless the low nibble is 0 (30_encoding.md R54, R56; 41_control_flow.md R85, R86; 60_exceptions.md
R141, R148). -/

namespace Sys2Proof

/-- The statements write a word of format XY as a number: its fixed digits first, then `X` and `Y`. -/
theorem ofNat_eq_wordXYN (t : Nat) (x y : Reg) (n : Fin 16) :
    BitVec.ofNat 16 (4096 * t + n.val + 256 * x.val + 16 * y.val) = wordXYN t x y n :=
  congrArg (BitVec.ofNat 16) (by omega)

/-- In the groups 5 and 9 a word with a low nibble other than 0 is in the list of R56. -/
theorem knownWord_wordXYN_eq_false {t : Nat} (ht : t = 5 ∨ t = 9) (x y : Reg) {n : Fin 16} (hn : n ≠ 0) :
    knownWord (wordXYN t x y n) = false := by
  have hlt : t < 16 := by omega
  obtain ⟨htop, hlow, _⟩ := (eq_wordXYN_iff hlt _ x y n).1 rfl
  have hgroup : knownGroup59 n.val = false := by simp [knownGroup59, Fin.val_ne_zero_iff.2 hn]
  rw [knownWord, htop, hlow]
  obtain rfl | rfl := ht
  · exact hgroup
  · exact hgroup

end Sys2Proof

namespace Sys2Proof.Machine

/-! ## A cycle whose word is unknown -/

theorem changesOnly_beginCycle {regs : List Reg} {parts : List Part} (s : State) (hopcode : .opcode ∈ parts)
    (hresult : .result ∈ parts) (op : Word) : changesOnly regs parts s (s.beginCycle op) :=
  (changesOnly_of_part (t := { s with currentOpcode := op }) s .opcode hopcode).trans
    (changesOnly_setResult _ hresult _)

theorem step_of_decode_error {s : State} {op : Word} {e : DecodeError} (hfault : s.fault = none)
    (hfetch : s.fetchWord = .word op) (hdecode : decode op = .error e) :
    step s = raiseFault (s.beginCycle op) (.unknownOpcode op s.pc) := by
  simp only [step, hfault, hfetch, hdecode]

/-- Settles O10: the cycle records the word it fetched, and then raises the fault. -/
theorem unknownOpcodeFaults : Obligations.UnknownOpcodeFaults := by
  intro s op hfault hfetch hunknown
  obtain ⟨t, ht, hlatch, hresult, hframe⟩ := raiseFault_raised (s.beginCycle op) (.unknownOpcode op s.pc)
  refine ⟨t, ?_, hlatch hfault, hframe.2 .opcode (by simp), hresult, ?_⟩
  · rw [step_of_decode_error hfault hfetch (decode_eq_error hunknown), ht]
  · exact (changesOnly_beginCycle s (by simp) (by simp) op).trans
      (raiseFault_writesOnly (by simp) (by simp) _ t ht)

/-! ## The skips on two registers -/

/-- What a skip does when it tests `p` (R76). -/
theorem skipIf_spec {c : Bool} {p : Prop} [Decidable p] (hc : c = true ↔ p) (s : State) :
    ∃ t, skipIf c s = .next t ∧ t.pc = (if p then s.pc + 4 else s.pc + 2) ∧ changesOnly [] [.pc] s t := by
  refine ⟨_, skipIf_eq c s, ?_, changesOnly_setPc s (by simp) _⟩
  simp only [State.setPc_pc, hc]

/-- Settles O26: the words with low nibble 0 are the encoder's, the others are in the list of R56, and each instruction
is one skip. -/
theorem skipOnRegisters : Obligations.SkipOnRegisters := by
  refine fun x y s => ⟨decodeEncode (.seReg x y), decodeEncode (.sneReg x y), fun n op hn hop => ?_,
    skipIf_spec beq_iff_eq s, skipIf_spec bne_iff_ne s⟩
  obtain rfl | rfl := hop
  · exact decode_eq_error (knownWord_wordXYN_eq_false (.inl rfl) x y hn)
  · exact decode_eq_error (knownWord_wordXYN_eq_false (.inr rfl) x y hn)

end Sys2Proof.Machine
end

