-- ==== Sys2Proof/Proofs/Shifts.lean ====
section
/-! PROOFS. Proofs/Shifts.lean: the two shifts, 8XY6 and 8XYE, which write the bit shifted out to `VF` and then shift
`V[X]`, whatever `Y` is (30_encoding.md R58; 42_alu.md R98, R100, R102). -/

namespace Sys2Proof.Machine

/-! ## Shifted bytes and the bits shifted out, as numbers -/

theorem lowBitFlag_toNat (b : Byte) : (lowBitFlag b).toNat = b.toNat % 2 := by
  simp [lowBitFlag]

theorem highBitFlag_toNat (b : Byte) : (highBitFlag b).toNat = b.toNat / 128 := by
  simp [highBitFlag, Nat.shiftRight_eq_div_pow]

theorem shiftRight_one_toNat (b : Byte) : (b >>> 1).toNat = b.toNat / 2 := by
  simp [Nat.shiftRight_eq_div_pow]

theorem shiftLeft_one_toNat (b : Byte) : (b <<< 1).toNat = 2 * b.toNat % 256 := by
  simp [Nat.shiftLeft_eq, Nat.mul_comm]

/-! ## Flag first, then a result that reads `V[X]` alone -/

/-- With `X = 15` the result is computed from the flag (R102). -/
theorem flagThenResult_unary (x y : Reg) (flag : Byte) (f : Byte → Byte) (s : State) :
    ∃ t, flagThenResult x y flag (fun a _ => f a) s = .next t ∧ t.pc = s.pc + 2 ∧ changesOnly [x, 15] [.pc] s t ∧
      (x ≠ 15 → t.getV 15 = flag ∧ t.getV x = f (s.getV x)) ∧ (x = 15 → t.getV 15 = f flag) := by
  obtain ⟨t, ht, hpc, _, hresult, hflag, _⟩ := flagThenResult_spec x y flag (fun a _ => f a) s
  refine ⟨t, ht, hpc, flagThenResult_writesOnly (by simp) (by simp) (by simp) y flag _ t ht, fun hx => ?_, ?_⟩
  · rw [if_neg hx] at hresult
    exact ⟨hflag hx, hresult⟩
  · rintro rfl
    rwa [if_pos rfl] at hresult

/-- Settles O33: `VF` takes bit 0, and half of that bit is 0. -/
theorem shiftRight : Obligations.ShiftRight := by
  intro x y s
  have hdecode := (decode_eq_ok_iff _ (.shr x y)).2 (ofNat_eq_wordXYN 0x8 x y 0x6)
  obtain ⟨t, ht, hpc, hframe, hother, hvf⟩ :=
    flagThenResult_unary x y (lowBitFlag (s.getV x)) (fun a => a >>> 1) s
  refine ⟨hdecode, t, ht, hpc, hframe, fun hx => ?_, fun hx => ?_⟩
  · obtain ⟨hflag, hresult⟩ := hother hx
    rw [hflag, hresult]
    exact ⟨lowBitFlag_toNat _, shiftRight_one_toNat _⟩
  · rw [hvf hx, shiftRight_one_toNat, lowBitFlag_toNat]
    omega

/-- Settles O34: `VF` takes bit 7, and twice that bit is 2 or 0. -/
theorem shiftLeft : Obligations.ShiftLeft := by
  intro x y s
  have hdecode := (decode_eq_ok_iff _ (.shl x y)).2 (ofNat_eq_wordXYN 0x8 x y 0xE)
  obtain ⟨t, ht, hpc, hframe, hother, hvf⟩ :=
    flagThenResult_unary x y (highBitFlag (s.getV x)) (fun a => a <<< 1) s
  refine ⟨hdecode, t, ht, hpc, hframe, fun hx => ?_, ?_⟩
  · obtain ⟨hflag, hresult⟩ := hother hx
    rw [hflag, hresult]
    exact ⟨highBitFlag_toNat _, shiftLeft_one_toNat _⟩
  · rintro rfl
    have := (s.getV 15).isLt
    rw [hvf rfl, shiftLeft_one_toNat, highBitFlag_toNat]
    split <;> omega

end Sys2Proof.Machine
end

