-- ==== Sys2Proof/Proofs/CycleOutcome.lean ====
section
/-! PROOFS. Proofs/CycleOutcome.lean: how an instruction can end its cycle, and from it that every cycle completes
(40_cycle.md R70, R71, R72, R78, R79; 60_exceptions.md R148). -/

namespace Sys2Proof.Machine

/-! ## Frames: nothing changes, and more may change -/

theorem changesOnly_refl {regs : List Reg} {parts : List Part} (s : State) : changesOnly regs parts s s :=
  ⟨fun _ _ => rfl, fun p _ => by cases p <;> simp [Part.same]⟩

theorem changesOnly.mono {regs regs' : List Reg} {parts parts' : List Part} {s t : State}
    (h : changesOnly regs parts s t) (hregs : regs ⊆ regs') (hparts : parts ⊆ parts') :
    changesOnly regs' parts' s t :=
  ⟨fun r hr => h.1 r fun hmem => hr (hregs hmem), fun p hp => h.2 p fun hmem => hp (hparts hmem)⟩

/-! ## What the end of a cycle leaves unchanged (R73) -/

theorem changesOnly_tick {regs : List Reg} {parts : List Part} (s : State) (hdt : .delayTimer ∈ parts)
    (hst : .soundTimer ∈ parts) (hevents : .events ∈ parts) : changesOnly regs parts s s.tick :=
  changesOnly_of _ _ _ _ (fun _ _ => rfl) rfl (.inr rfl) (.inr rfl) fun p _ _ _ => by
    cases p <;> simp_all [Part.same]

section

variable (s : State)

/-- `finishCycle` writes the two timers and the events alone. -/
theorem State.finishCycle_frame : changesOnly [] [.delayTimer, .soundTimer, .events] s s.finishCycle := by
  obtain ⟨e, _⟩ | ⟨e, _⟩ := s.finishCycle_cases <;> rw [e]
  · exact changesOnly_tick s (by simp) (by simp) (by simp)
  · exact changesOnly_refl s

@[simp] theorem State.finishCycle_fault : s.finishCycle.fault = s.fault := s.finishCycle_frame.2 .fault (by simp)
@[simp] theorem State.finishCycle_result : s.finishCycle.result = s.result := s.finishCycle_frame.2 .result (by simp)
@[simp] theorem State.finishCycle_fb : s.finishCycle.fb = s.fb := s.finishCycle_frame.2 .display (by simp)

end

/-! ## How an instruction ends its cycle -/

/-- The three ways an instruction run at `s` ends its cycle: it raises a fault, it waits, or it completes and leaves the
latch and the cycle's result alone. -/
inductive Completes (s : State) : Result → Prop
  | raised (f : Fault) : Completes s (raiseFault s f)
  | blocked : Completes s (.next { s with result := some .blocked })
  | done {t : State} (hfault : t.fault = s.fault) (hresult : t.result = s.result) : Completes s (.next t)

theorem skipIfKey_completes (x : Reg) (level : Bool) (s : State) : Completes s (skipIfKey x level s) := by
  unfold skipIfKey
  split
  · exact .raised _
  · exact .done rfl rfl

theorem checkIndexed_completes (n : Nat) {s : State} {go : State → State} (hfault : (go s).fault = s.fault)
    (hresult : (go s).result = s.result) : Completes s (checkIndexed n s go) := by
  obtain ⟨e, _⟩ | ⟨e, _⟩ := checkIndexed_cases n s go <;> rw [e]
  · exact .raised _
  · exact .done hfault hresult

theorem execRet_completes (s : State) : Completes s (execRet s) := by
  unfold execRet
  split
  · exact .raised _
  · exact .done rfl rfl

theorem execCall_completes (nnn : Addr12) (s : State) : Completes s (execCall nnn s) := by
  unfold execCall
  split
  · exact .raised _
  · exact .done rfl rfl

theorem execDrw_completes (x y : Reg) (n : Fin 16) (s : State) : Completes s (execDrw x y n s) := by
  unfold execDrw
  split
  · exact .raised _
  · dsimp only
    split
    · exact .raised _
    · exact .done rfl rfl

theorem execLdKey_completes (x : Reg) (s : State) : Completes s (execLdKey x s) := by
  unfold execLdKey
  split
  · exact .done rfl rfl
  · exact .blocked

theorem exec_completes (i : Instr) (s : State) : Completes s (exec i s) := by
  cases i with
  | ret => exact execRet_completes s
  | call nnn => exact execCall_completes nnn s
  | drw x y n => exact execDrw_completes x y n s
  | ldKey x => exact execLdKey_completes x s
  | skp x | sknp x => exact skipIfKey_completes x _ s
  | ldBcd | storeRegs | loadRegs =>
    simp only [exec, execLdBcd, execStoreRegs, execLoadRegs]
    exact checkIndexed_completes _ rfl rfl
  | cls | jp | jpV0 | seImm | sneImm | seReg | sneReg | ldImm | addImm | ldReg | orReg | andReg | xorReg | addReg
  | subReg | shr | subnReg | shl | rnd | ldIndex | addIndex | ldFont | ldVxDt | ldDtVx | ldStVx =>
    exact .done rfl rfl

theorem Completes.exists_next {s : State} {r : Result} (h : Completes s r) : ∃ t, r = .next t := by
  cases h with
  | raised | blocked | done => exact ⟨_, rfl⟩

/-! ## A cycle that runs an instruction (R72) -/

theorem step_of_exec_next {s t : State} {op : Word} {i : Instr} (hfault : s.fault = none)
    (hfetch : s.fetchWord = .word op) (hdecode : decode op = .ok i) (hexec : exec i (s.beginCycle op) = .next t) :
    step s = .next t.finishCycle := by
  simp only [step, hfault, hfetch, hdecode, hexec]

/-- Settles O7: the word fetched is the one the two bytes spell, and every instruction answers a next state. -/
theorem stepRunsDecoded : Obligations.StepRunsDecoded := by
  intro s op i hfault hpc hop hdecode
  have hfetch : s.fetchWord = .word op := by
    rw [State.fetchWord_of_le hpc]
    exact congrArg Fetched.word (BitVec.eq_of_toNat_eq ((wordOfBytes_toNat _ _).trans hop.symm))
  obtain ⟨t, hexec⟩ := (exec_completes i (s.beginCycle op)).exists_next
  exact ⟨t, hexec, step_of_exec_next hfault hfetch hdecode hexec⟩

/-! ## The cycle of a halted machine (R78) -/

theorem step_of_fault {s : State} {f : Fault} (hfault : s.fault = some f) : step s = haltedCycle s := by
  simp only [step, hfault]

/-- Settles O11: a halted cycle records its result alone. -/
theorem haltedCycle_changesOnly_result : Obligations.HaltedCycle := fun s _ hfault =>
  ⟨_, step_of_fault hfault, hfault, rfl, changesOnly_setResult s (by simp) _⟩

/-! ## Every cycle completes (R70) -/

/-- `r` answers a next state with a cycle's result, Faulted exactly when a fault is latched. -/
def EndsCycle (r : Result) : Prop :=
  ∃ t, r = .next t ∧ (t.result = some .normal ∨ t.result = some .blocked ∨ t.result = some .faulted) ∧
    (t.result = some .faulted ↔ t.fault ≠ none)

theorem endsCycle_faulted {t : State} (hresult : t.result = some .faulted) (hfault : t.fault ≠ none) :
    EndsCycle (.next t) :=
  ⟨t, rfl, .inr (.inr hresult), iff_of_true hresult hfault⟩

theorem endsCycle_faultFree {t : State} (hresult : t.result = some .normal ∨ t.result = some .blocked)
    (hfault : t.fault = none) : EndsCycle (.next t) := by
  obtain h | h := hresult
  · exact ⟨t, rfl, .inl h, by simp [h, hfault]⟩
  · exact ⟨t, rfl, .inr (.inl h), by simp [h, hfault]⟩

theorem raiseFault_endsCycle (s : State) (f : Fault) : EndsCycle (raiseFault s f) :=
  endsCycle_faulted rfl (by simp)

theorem finishCycle_endsCycle {t : State} (h : EndsCycle (.next t)) : EndsCycle (.next t.finishCycle) := by
  obtain ⟨_, ⟨⟩, h⟩ := h
  exact ⟨_, rfl, by simpa using h⟩

theorem Completes.endsCycle {s : State} {r : Result} (h : Completes s r) (hfault : s.fault = none)
    (hresult : s.result = some .normal) : EndsCycle r := by
  cases h with
  | raised f => exact raiseFault_endsCycle s f
  | blocked => exact endsCycle_faultFree (.inr rfl) hfault
  | done hf hr => exact endsCycle_faultFree (.inl (hr.trans hresult)) (hf.trans hfault)

/-- Settles O13: a halted machine keeps its record, a fetch or decode that fails latches one, and an instruction ends
in one of its three ways. -/
theorem everyStepCompletes : Obligations.EveryStepCompletes := by
  show ∀ s, EndsCycle (step s)
  intro s
  cases hfault : s.fault with
  | some f =>
    rw [step_of_fault hfault]
    exact endsCycle_faulted rfl (by simp [hfault])
  | none =>
    cases hfetch : s.fetchWord with
    | outOfBounds a =>
      rw [step_of_fetchWord_outOfBounds hfault hfetch]
      exact raiseFault_endsCycle s _
    | word op =>
      cases hdecode : decode op with
      | error e =>
        rw [step_of_decode_error hfault hfetch hdecode]
        exact raiseFault_endsCycle _ _
      | ok i =>
        have hends := (exec_completes i (s.beginCycle op)).endsCycle hfault rfl
        obtain ⟨t, hexec⟩ := (exec_completes i (s.beginCycle op)).exists_next
        rw [hexec] at hends
        rw [step_of_exec_next hfault hfetch hdecode hexec]
        exact finishCycle_endsCycle hends

end Sys2Proof.Machine
end

