-- ==== Sys2Proof/Proofs/ProgramCounter.lean ====
section
/-! PROOFS. Proofs/ProgramCounter.lean: where each instruction that does not fault leaves the program counter
(40_cycle.md R76; 43_index_memory.md R112). -/

namespace Sys2Proof.Machine

/-! ## The shared shapes of instructions -/

/-- Whatever next state `r` answers without a fault has its program counter at `w`. -/
def LeavesPcAt (w : Word) (r : Result) : Prop := ∀ t, r = .next t → t.fault = none → t.pc = w

section

variable {w : Word} {s t : State}

theorem leavesPcAt_next (h : t.pc = w) : LeavesPcAt w (.next t) := by
  rintro _ ⟨⟩ _
  exact h

/-- A raised fault leaves a record latched, so it has no fault-free next state. -/
theorem raiseFault_leavesPcAt (f : Fault) : LeavesPcAt w (raiseFault s f) := by
  rintro _ ⟨⟩ hfault
  simp at hfault

theorem checkIndexed_leavesPcAt {n : Nat} {go : State → State} (hgo : (go s).pc = w) :
    LeavesPcAt w (checkIndexed n s go) := by
  obtain ⟨e, _⟩ | ⟨e, _⟩ := checkIndexed_cases n s go <;> rw [e]
  · exact raiseFault_leavesPcAt _
  · exact leavesPcAt_next hgo

theorem skipIf_leavesPcAt {c : Bool} {p : Prop} [Decidable p] (hc : c = true ↔ p) :
    LeavesPcAt (skipTo p s.pc) (skipIf c s) := by
  rw [skipIf_eq]
  exact leavesPcAt_next (by simp only [State.setPc_pc, skipTo, hc])

end

/-! ## The instructions with a case split of their own -/

section

variable (s : State)

theorem skipIfKey_leavesPcAt (x : Reg) (level : Bool) :
    LeavesPcAt (skipTo (s.keys[(s.getV x).toNat]? = some level) s.pc) (skipIfKey x level s) := by
  unfold skipIfKey
  obtain ⟨k, e, hk⟩ | ⟨e, _⟩ := keyOf_cases (s.getV x) <;> rw [e]
  · exact skipIf_leavesPcAt (by simp [hk, State.key])
  · exact raiseFault_leavesPcAt _

theorem execRet_leavesPcAt : LeavesPcAt (s.stack[s.sp.val - 1]?.getD 0 + 2) (execRet s) := by
  unfold execRet
  obtain ⟨k, e, hsp⟩ | ⟨e, _⟩ := s.popSlot_cases <;> rw [e]
  · exact leavesPcAt_next (by simp [hsp])
  · exact raiseFault_leavesPcAt _

theorem execCall_leavesPcAt (nnn : Addr12) : LeavesPcAt (nnn.setWidth 16) (execCall nnn s) := by
  unfold execCall
  split
  · exact raiseFault_leavesPcAt _
  · exact leavesPcAt_next rfl

theorem execDrw_leavesPcAt (x y : Reg) (n : Fin 16) : LeavesPcAt (s.pc + 2) (execDrw x y n s) := by
  unfold execDrw
  split
  · exact raiseFault_leavesPcAt _
  · dsimp only
    split
    · exact raiseFault_leavesPcAt _
    · exact leavesPcAt_next rfl

theorem State.anyKey_iff : s.anyKey = true ↔ ∃ k : Reg, s.keys[k.val] = true := by
  simp [State.anyKey, Vector.any_eq_true, Fin.exists_iff]

theorem execLdKey_leavesPcAt (x : Reg) : LeavesPcAt (if s.anyKey then s.pc + 2 else s.pc) (execLdKey x s) := by
  unfold execLdKey
  obtain ⟨k, e, hk, _⟩ | ⟨e, hnone⟩ := s.highestKey_cases <;> rw [e]
  · rw [if_pos (s.anyKey_iff.2 ⟨k, hk⟩)]
    exact leavesPcAt_next rfl
  · have hno : ¬ s.anyKey = true := by simp [State.anyKey_iff, hnone]
    rw [if_neg hno]
    exact leavesPcAt_next rfl

theorem execLdFont_leavesPcAt (x : Reg) : LeavesPcAt (pcAfter (.ldFont x) s) (execLdFont x s) := by
  unfold execLdFont pcAfter
  cases s.params.fx29PcDelta with
  | zero => exact leavesPcAt_next (BitVec.add_zero s.pc)
  | two => exact leavesPcAt_next rfl

end

/-! ## Every instruction -/

theorem exec_leavesPcAt (i : Instr) (s : State) : LeavesPcAt (pcAfter i s) (exec i s) := by
  cases i with
  | ret => exact execRet_leavesPcAt s
  | call nnn => exact execCall_leavesPcAt s nnn
  | drw x y n => exact execDrw_leavesPcAt s x y n
  | ldKey x => exact execLdKey_leavesPcAt s x
  | ldFont x => exact execLdFont_leavesPcAt s x
  | skp x | sknp x => exact skipIfKey_leavesPcAt s x _
  | seImm | seReg => exact skipIf_leavesPcAt beq_iff_eq
  | sneImm | sneReg => exact skipIf_leavesPcAt bne_iff_ne
  | ldBcd | storeRegs | loadRegs =>
    simp only [exec, execLdBcd, execStoreRegs, execLoadRegs]
    exact checkIndexed_leavesPcAt rfl
  | cls | jp | jpV0 | ldImm | addImm | ldReg | orReg | andReg | xorReg | addReg | subReg | shr | subnReg | shl | rnd
  | ldIndex | addIndex | ldVxDt | ldDtVx | ldStVx => exact leavesPcAt_next rfl

/-- Settles O14: each instruction's next state has its `pc` where its row says, or has a fault latched. -/
theorem pcMoves : Obligations.PcMoves := fun i s t _ ht hfault => exec_leavesPcAt i s t ht hfault

end Sys2Proof.Machine
end

