-- ==== Sys2Proof/Proofs/TimersAndEvents.lean ====
section
/-! PROOFS. Proofs/TimersAndEvents.lean: what the end of a cycle does to the timers, which events a cycle emits, and two
cycles that do not move `pc` (40_cycle.md R70, R73, R74; 43_index_memory.md R112; 45_keypad_timers.md R133, R154, R155;
70_reset_and_hazards.md R176, R177). -/

namespace Sys2Proof.Machine

/-! ## The end of a cycle (R73) -/

/-- The tick's counts, from a state before with the same timers and events. -/
theorem changesOnly.tick_counts {regs : List Reg} {parts : List Part} {s t : State} (h : changesOnly regs parts s t)
    (hdt : .delayTimer ∉ parts) (hst : .soundTimer ∉ parts) (hevents : .events ∉ parts) :
    t.tick.dt.toNat = s.dt.toNat - 1 ∧ t.tick.st.toNat = s.st.toNat - 1 ∧
      t.tick.events = s.events ++ (if s.st.toNat = 1 then [.beep] else []) := by
  have hdt : t.dt = s.dt := h.2 .delayTimer hdt
  have hst : t.st = s.st := h.2 .soundTimer hst
  have hevents : t.events = s.events := h.2 .events hevents
  rw [State.tick_dt, State.tick_st, State.tick_events, countDown_toNat, countDown_toNat, beepOf_eq, hdt, hst, hevents]
  exact ⟨rfl, rfl, rfl⟩

section

variable {s : State}

theorem State.finishCycle_blocked (h : s.result = some .blocked) :
    s.finishCycle = if s.params.keywaitBlockedTick then s.tick else s := by
  simp only [State.finishCycle, h]

theorem State.finishCycle_eq_tick
    (h : s.result = some .normal ∨ (s.result = some .blocked ∧ s.params.keywaitBlockedTick = true)) :
    s.finishCycle = s.tick := by
  obtain h | ⟨h, hparam⟩ := h
  · exact s.finishCycle_normal h
  · rw [State.finishCycle_blocked h, if_pos hparam]

theorem State.finishCycle_eq_self
    (h : s.result = some .faulted ∨ (s.result = some .blocked ∧ s.params.keywaitBlockedTick = false)) :
    s.finishCycle = s := by
  obtain h | ⟨h, hparam⟩ := h
  · exact s.finishCycle_faulted h
  · rw [State.finishCycle_blocked h, hparam, if_neg Bool.false_ne_true]

end

/-- Settles O8: the cycle's result and the parameter decide between the tick and nothing. -/
theorem tickMeaning : Obligations.TickMeaning := by
  refine fun s => ⟨fun h => ?_, State.finishCycle_eq_self⟩
  have hsame : changesOnly [] [] s s := changesOnly_refl s
  obtain ⟨hdt, hst, hevents⟩ := hsame.tick_counts (by simp) (by simp) (by simp)
  rw [State.finishCycle_eq_tick h]
  exact ⟨hdt, hst, hevents, changesOnly_tick s (by simp) (by simp) (by simp)⟩

/-! ## The delay timer over a cycle (R154) -/

theorem delayTimer_mem_partWriters {i : Instr} (h : .delayTimer ∈ partWriters i) : ∃ x, i = .ldDtVx x := by
  cases i <;> simp [partWriters] at h ⊢

theorem exec_dt {i : Instr} {s t : State} (ht : exec i s = .next t) (hi : ∀ x, i ≠ .ldDtVx x) : t.dt = s.dt := by
  refine (exec_writesOnly i s t ht).2 .delayTimer fun hmem => ?_
  obtain ⟨x, rfl⟩ := delayTimer_mem_partWriters hmem
  exact hi x rfl

theorem exec_ldDtVx {x : Reg} {s t : State} (ht : exec (.ldDtVx x) s = .next t) :
    t.dt = s.getV x ∧ t.result = s.result := by
  cases ht
  exact ⟨rfl, rfl⟩

/-- Settles O17: a Normal cycle ends with the tick of the timer its instruction leaves, which FX15 alone writes; a
Faulted one ends without a tick, and FX15 does not fault. -/
theorem delayTimerDecays : Obligations.DelayTimerDecays := by
  intro s t op hfault hfetch ht
  obtain ⟨_, h, _⟩ | ⟨_, _, h, _⟩ | ⟨_, _, _, _, _, h⟩ | ⟨op', i, u, _, hfetch', hdecode, hexec, rfl⟩ :=
    step_next_cases ht
  · cases hfault.symm.trans h
  · cases hfetch.symm.trans h
  · obtain rfl := Host.Outcome.next.inj h
    exact ⟨fun h => (by cases h), fun h => (by cases h), fun _ => rfl⟩
  · obtain rfl : op = op' := Fetched.word.inj (hfetch.symm.trans hfetch')
    have hkept (hi : ∀ x, i ≠ .ldDtVx x) : u.dt = s.dt := exec_dt (s := s.beginCycle op) hexec hi
    have hset {x : Reg} (hi : i = .ldDtVx x) : u.dt = s.getV x ∧ u.result = some .normal :=
      exec_ldDtVx (s := s.beginCycle op) (hi ▸ hexec)
    have hticked (h : u.result = some .normal) : u.finishCycle.dt.toNat = u.dt.toNat - 1 := by
      rw [u.finishCycle_normal h]
      exact countDown_toNat u.dt
    rw [State.finishCycle_result]
    refine ⟨fun hresult hother => ?_, fun hresult x hx => ?_, fun hresult => ?_⟩
    · rw [hticked hresult, hkept fun x hi => hother x (hi ▸ hdecode)]
    · obtain ⟨hdt, _⟩ := hset (Decoded.ok.inj (hdecode.symm.trans hx))
      rw [hticked hresult, hdt]
    · rw [u.finishCycle_faulted hresult]
      refine hkept fun x hi => ?_
      obtain ⟨_, hnormal⟩ := hset hi
      cases hnormal.symm.trans hresult

/-! ## The events of a cycle (R70, R74) -/

theorem events_mem_partWriters {i : Instr} (h : .events ∈ partWriters i) : i = .cls ∨ ∃ x y n, i = .drw x y n := by
  cases i <;> simp [partWriters] at h ⊢

theorem execDrw_events {x y : Reg} {n : Fin 16} {s t : State} (ht : execDrw x y n s = .next t) :
    t.events = s.events ∨ t.events = s.events ++ [.frameReady t.fb] := by
  unfold execDrw at ht
  split at ht
  · cases ht
    exact .inl rfl
  · dsimp only at ht
    split at ht <;> cases ht
    · exact .inl rfl
    · exact .inr rfl

theorem exec_events {i : Instr} {s t : State} (ht : exec i s = .next t) :
    t.events = s.events ∨ t.events = s.events ++ [.frameReady t.fb] := by
  by_cases hi : .events ∈ partWriters i
  · obtain rfl | ⟨x, y, n, rfl⟩ := events_mem_partWriters hi
    · cases ht
      exact .inr rfl
    · exact execDrw_events ht
  · exact .inl ((exec_writesOnly i s t ht).2 .events hi)

theorem State.finishCycle_events (s : State) :
    ∃ beeps, s.finishCycle.events = s.events ++ beeps ∧ (beeps = [] ∨ beeps = [.beep]) := by
  obtain ⟨e, _⟩ | ⟨e, _⟩ := s.finishCycle_cases <;> rw [e]
  · refine ⟨beepOf s.st, rfl, ?_⟩
    unfold beepOf
    split
    · exact .inr rfl
    · exact .inl rfl
  · exact ⟨[], (List.append_nil _).symm, .inl rfl⟩

/-- Settles O15: a cycle that runs no instruction emits nothing; one that does emits the instruction's frame, and then
the beep of the tick, which leaves the framebuffer as it is. -/
theorem eventsOfACycle : Obligations.EventsOfACycle := by
  intro s t ht
  have hsilent (h : t.events = s.events) : ∃ frames beeps, t.events = s.events ++ frames ++ beeps ∧
      (frames = [] ∨ frames = [.frameReady t.fb]) ∧ (beeps = [] ∨ beeps = [.beep]) :=
    ⟨[], [], by simp [h], .inl rfl, .inl rfl⟩
  obtain ⟨_, _, h⟩ | ⟨_, _, _, h⟩ | ⟨_, _, _, _, _, h⟩ | ⟨op, i, u, _, _, _, hexec, rfl⟩ := step_next_cases ht
  · cases h
    exact hsilent rfl
  · cases h
    exact hsilent rfl
  · cases h
    exact hsilent rfl
  · obtain ⟨beeps, hevents, hbeeps⟩ := u.finishCycle_events
    rw [hevents, State.finishCycle_fb]
    obtain h | h := exec_events hexec <;> rw [h]
    · exact ⟨[], beeps, by simp, .inl rfl, hbeeps⟩
    · exact ⟨_, beeps, by simp, .inr rfl, hbeeps⟩

/-! ## FX0A with no key pressed (R133, R176) -/

theorem exec_ldKey_blocked (x : Reg) {s : State} (h : ∀ k : Reg, s.keys[k.val] = false) :
    ∃ t, exec (.ldKey x) s = .next t ∧ t.result = some .blocked ∧ changesOnly [] [.result] s t := by
  refine ⟨{ s with result := some .blocked }, ?_, rfl, changesOnly_setResult s (by simp) _⟩
  obtain ⟨k, _, hk, _⟩ | ⟨e, _⟩ := s.highestKey_cases
  · cases (h k).symm.trans hk
  · simp only [exec, execLdKey, e]

/-- Settles O19: the instruction writes the cycle's result alone, and the parameter decides whether the cycle then
ticks. -/
theorem blockedCycle : Obligations.BlockedCycle := by
  intro s op x hfault hfetch hdecode hkeys
  obtain ⟨u, hexec, hresult, hwait⟩ := exec_ldKey_blocked x (s := s.beginCycle op) hkeys
  have hopcode : u.currentOpcode = op := hwait.2 .opcode (by simp)
  have hparams : u.params = s.params := hwait.2 .params (by simp)
  have hframe : changesOnly [] [.result, .opcode] s u :=
    (changesOnly_beginCycle s (by simp) (by simp) op).trans (hwait.mono (by simp) (by simp))
  refine ⟨_, step_of_exec_next hfault hfetch hdecode hexec, u.finishCycle_result.trans hresult,
    (u.finishCycle_frame.2 .opcode (by simp)).trans hopcode, fun hparam => ?_, fun hparam => ?_⟩
  · rwa [State.finishCycle_eq_self (.inr ⟨hresult, hparams ▸ hparam⟩)]
  · obtain ⟨hdt, hst, hevents⟩ := hframe.tick_counts (by simp) (by simp) (by simp)
    rw [State.finishCycle_eq_tick (.inr ⟨hresult, hparams ▸ hparam⟩)]
    exact ⟨hdt, hst, hevents,
      (hframe.mono (by simp) (by simp)).trans (changesOnly_tick u (by simp) (by simp) (by simp))⟩

/-! ## FX29 that does not move `pc` (R112, R177) -/

theorem zextByte_mul_five_toNat (b : Byte) : (zextByte b * 5).toNat = 5 * b.toNat := by
  have hb := b.isLt
  have hfive : (5 : Word).toNat = 5 := rfl
  rw [zextByte, BitVec.toNat_mul, BitVec.toNat_setWidth, hfive]
  omega

theorem State.advance_zero (s : State) : s.advance 0 = s := congrArg s.setPc (BitVec.add_zero s.pc)

theorem exec_ldFont_zero (x : Reg) {s : State} (h : s.params.fx29PcDelta = .zero) :
    ∃ t, exec (.ldFont x) s = .next t ∧ t.index = zextByte (s.getV x) * 5 ∧ changesOnly [] [.index] s t := by
  refine ⟨s.setIndex (zextByte (s.getV x) * 5), ?_, rfl, changesOnly_setIndex s (by simp) _⟩
  simp only [exec, execLdFont, h, fx29Delta, State.advance_zero]

theorem fetchWord_of_changesOnly {regs : List Reg} {parts : List Part} {s t : State} (h : changesOnly regs parts s t)
    (hpc : .pc ∉ parts) (hmem : .memory ∉ parts) : t.fetchWord = s.fetchWord := by
  have hpc : t.pc = s.pc := h.2 .pc hpc
  have hmem : ∀ a, t.readByte a = s.readByte a := h.2 .memory hmem
  simp only [State.fetchWord, hpc, hmem]

/-- Settles O20: the instruction writes `I` alone, so after the tick the parameter, `pc` and the bytes there are as
they were. -/
theorem fx29LoopsUnderDeltaZero : Obligations.Fx29LoopsUnderDeltaZero := by
  intro s op x hfault hfetch hdecode hdelta
  obtain ⟨u, hexec, hindex, hload⟩ := exec_ldFont_zero x (s := s.beginCycle op) hdelta
  have hresult : u.result = some .normal := hload.2 .result (by simp)
  have hbegun : changesOnly [] [.index, .opcode, .result] s u :=
    (changesOnly_beginCycle s (by simp) (by simp) op).trans (hload.mono (by simp) (by simp))
  obtain ⟨hdt, hst, hevents⟩ := hbegun.tick_counts (by simp) (by simp) (by simp)
  have hframe : changesOnly [] [.index, .delayTimer, .soundTimer, .events, .opcode, .result] s u.tick :=
    (hbegun.mono (by simp) (by simp)).trans (changesOnly_tick u (by simp) (by simp) (by simp))
  have hparams : u.tick.params = s.params := hframe.2 .params (by simp)
  have hstep := step_of_exec_next hfault hfetch hdecode hexec
  rw [u.finishCycle_normal hresult] at hstep
  refine ⟨u.tick, hstep, hresult, ?_, (hframe.2 .fault (by simp)).trans hfault, hparams ▸ hdelta,
    hframe.2 .pc (by simp), (fetchWord_of_changesOnly hframe (by simp) (by simp)).trans hfetch, hdt, hst, hevents,
    hframe⟩
  rw [State.tick_index, hindex]
  exact zextByte_mul_five_toNat _

end Sys2Proof.Machine
end

