-- ==== Sys2Proof/Proofs/ControlFlow.lean ====
section
/-! PROOFS. Proofs/ControlFlow.lean: the jumps, call and return, and the skips on a literal (41_control_flow.md R80 to
R84, R87, R88; 60_exceptions.md R143, R144). -/

namespace Sys2Proof.Machine

/-! ## The jumps (R81, R87) -/

theorem zextAddr_toNat (nnn : Addr12) : (zextAddr nnn).toNat = nnn.toNat :=
  BitVec.toNat_setWidth_of_le (by decide)

theorem zextByte_toNat (b : Byte) : (zextByte b).toNat = b.toNat :=
  BitVec.toNat_setWidth_of_le (by decide)

/-- The target of BNNN is at most 0x10FE, so the 16-bit sum does not wrap. -/
theorem zextAddr_add_zextByte_toNat (nnn : Addr12) (b : Byte) :
    (zextAddr nnn + zextByte b).toNat = nnn.toNat + b.toNat := by
  have haddr := nnn.isLt
  have hbyte := b.isLt
  rw [BitVec.toNat_add, zextAddr_toNat, zextByte_toNat, Nat.mod_eq_of_lt (by omega)]

/-- Settles O22: each word is the encoder's, and each instruction is one assignment to `pc`. -/
theorem jumps : Obligations.Jumps := fun nnn s =>
  ⟨decodeEncode (.jp nnn), decodeEncode (.jpV0 nnn),
    ⟨_, rfl, zextAddr_toNat nnn, changesOnly_setPc s (by simp) _⟩,
    ⟨_, rfl, zextAddr_add_zextByte_toNat nnn (s.getV 0), changesOnly_setPc s (by simp) _⟩⟩

/-! ## The slots of the stack pointer (R16) -/

section

variable {s : State}

theorem State.popSlot_eq_some {k : Reg} (h : s.sp.val = k.val + 1) : s.popSlot = some k := by
  obtain ⟨j, e, hj⟩ | ⟨_, hempty⟩ := s.popSlot_cases
  · rw [e, Fin.ext (by omega : j.val = k.val)]
  · omega

theorem State.popSlot_eq_none (h : s.sp.val = 0) : s.popSlot = none := by
  obtain ⟨_, _, hj⟩ | ⟨e, _⟩ := s.popSlot_cases
  · omega
  · exact e

theorem State.pushSlot_eq_some {k : Reg} (h : s.sp.val = k.val) : s.pushSlot = some k := by
  obtain ⟨j, e, hj⟩ | ⟨_, hfull⟩ := s.pushSlot_cases
  · rw [e, Fin.ext (hj.symm.trans h)]
  · omega

theorem State.pushSlot_eq_none (h : s.sp.val = 16) : s.pushSlot = none := by
  obtain ⟨j, _, hj⟩ | ⟨e, _⟩ := s.pushSlot_cases
  · omega
  · exact e

/-! ## Call and return (R80, R82) -/

theorem exec_ret_next {k : Reg} (h : s.sp.val = k.val + 1) :
    exec .ret s = .next ((s.pop k).setPc (s.stack[k.val] + 2)) := by
  simp only [exec, execRet, State.popSlot_eq_some h]

theorem exec_ret_raised (h : s.sp.val = 0) : ∃ t, exec .ret s = .next t ∧ raised (.stackUnderflow s.pc) s t := by
  simp only [exec, execRet, State.popSlot_eq_none h]
  exact raiseFault_raised s _

theorem exec_call_next (nnn : Addr12) {k : Reg} (h : s.sp.val = k.val) :
    exec (.call nnn) s = .next ((s.push k s.pc).setPc (zextAddr nnn)) := by
  simp only [exec, execCall, State.pushSlot_eq_some h]

theorem exec_call_raised (nnn : Addr12) (h : s.sp.val = 16) :
    ∃ t, exec (.call nnn) s = .next t ∧ raised (.stackOverflow s.pc) s t := by
  simp only [exec, execCall, State.pushSlot_eq_none h]
  exact raiseFault_raised s _

end

/-- Settles O21: the pop moves `sp` alone, and the jump back moves `pc` alone. -/
theorem returnPops : Obligations.ReturnPops :=
  ⟨decodeEncode .ret,
    fun s k h => ⟨_, exec_ret_next h, rfl, rfl, fun _ => rfl,
      (changesOnly_pop s (by simp) k).trans (changesOnly_setPc _ (by simp) _)⟩,
    fun _ h => exec_ret_raised h⟩

/-- Settles O23: the push writes one entry and `sp`, and the jump moves `pc` alone. -/
theorem callPushes : Obligations.CallPushes := by
  refine fun nnn s => ⟨decodeEncode (.call nnn), fun k h => ⟨_, exec_call_next nnn h, ?_, rfl, zextAddr_toNat nnn,
    fun j hj => ?_, ?_⟩, exec_call_raised nnn⟩
  · exact Vector.getElem_set_self k.isLt
  · exact Vector.getElem_set_ne k.isLt j.isLt fun e => hj (Fin.ext e.symm)
  · exact (changesOnly_push s (by simp) (by simp) k s.pc).trans (changesOnly_setPc _ (by simp) _)

/-- Settles O24: the return pops the slot the call pushed its own address to. -/
theorem callReturnRoundTrip : Obligations.CallReturnRoundTrip := by
  intro nnn s h
  obtain ⟨_, hcall, _⟩ := callPushes nnn s
  obtain ⟨t, ht, hentry, hsp, _⟩ := hcall ⟨s.sp.val, h⟩ rfl
  obtain ⟨_, hret, _⟩ := returnPops
  obtain ⟨u, hu, hsp', hpc, _⟩ := hret t ⟨s.sp.val, h⟩ hsp
  exact ⟨t, u, ht, hu, hpc.trans (congrArg (· + 2) hentry), Fin.ext hsp'⟩

/-! ## The skips on a literal (R83, R84) -/

/-- Settles O25: each word is the encoder's, and each instruction is one skip. -/
theorem skipOnLiteral : Obligations.SkipOnLiteral := fun x nn s =>
  ⟨decodeEncode (.seImm x nn), decodeEncode (.sneImm x nn), skipIf_spec beq_iff_eq s, skipIf_spec bne_iff_ne s⟩

end Sys2Proof.Machine
end

