-- ==== Sys2Proof/Proofs/Alu.lean ====
section
/-! PROOFS. Proofs/Alu.lean: the instructions that write one register and no flag, and the three that write the carry
or not-borrow to `VF` and then a sum or a difference (42_alu.md R90 to R97, R99, R102 to R104). -/

namespace Sys2Proof.Machine

/-! ## One register and no flag (R103) -/

theorem writeReg_spec (x : Reg) (b : Byte) (s : State) :
    ∃ t, writeReg x b s = .next t ∧ t.getV x = b ∧ t.pc = s.pc + 2 ∧ changesOnly [x] [.pc] s t :=
  ⟨_, writeReg_eq x b s, s.getV_setV_self x b, rfl, writeReg_writesOnly (by simp) (by simp) b _ (writeReg_eq x b s)⟩

/-- Settles O27: the word is the encoder's, and the instruction writes the literal. -/
theorem loadLiteral : Obligations.LoadLiteral := fun x nn s =>
  ⟨decodeEncode (.ldImm x nn), writeReg_spec x nn s⟩

/-- Settles O28: the byte written is the sum modulo 256. -/
theorem addLiteral : Obligations.AddLiteral := by
  intro x nn s
  obtain ⟨t, ht, hresult, hpc, hframe⟩ := writeReg_spec x (s.getV x + nn) s
  exact ⟨decodeEncode (.addImm x nn), t, ht, by rw [hresult, BitVec.toNat_add], hpc, hframe⟩

/-- Settles O29: the words are the encoder's, and each instruction is one register write. -/
theorem moveAndLogic : Obligations.MoveAndLogic := by
  intro x y s
  have hdecode := fun (n : Fin 16) (i : Instr) (hi : encode i = wordXYN 0x8 x y n) =>
    (decode_eq_ok_iff _ i).2 ((ofNat_eq_wordXYN 0x8 x y n).trans hi.symm)
  exact ⟨hdecode 0 (.ldReg x y) rfl, hdecode 1 (.orReg x y) rfl, hdecode 2 (.andReg x y) rfl,
    hdecode 3 (.xorReg x y) rfl, writeReg_spec x _ s, writeReg_spec x _ s, writeReg_spec x _ s, writeReg_spec x _ s⟩

/-- Settles O35: one register write at the state with the draw counted, of a byte AND `NN`, which is at most `NN`. -/
theorem randomMasked : Obligations.RandomMasked := by
  intro x nn s
  obtain ⟨t, ht, hresult, hpc, hframe⟩ := writeReg_spec x (Config.rnd s.draws &&& nn) { s with draws := s.draws + 1 }
  refine ⟨decodeEncode (.rnd x nn), t, ht, hresult, ?_, hpc, hframe.2 .draws (by simp), execRnd_writesOnly s x nn t ht⟩
  rw [hresult, BitVec.toNat_and]
  exact Nat.and_le_right

/-! ## Flags and differences of bytes, as numbers -/

theorem carryFlag_toNat (a b : Byte) : (carryFlag a b).toNat = if a.toNat + b.toNat > 255 then 1 else 0 := by
  have hoverflow : b.toNat > 255 - a.toNat ↔ a.toNat + b.toNat > 255 := by
    have := a.isLt
    omega
  simp only [carryFlag, flagByte_toNat, decide_eq_true_eq, hoverflow]

theorem notBorrowFlag_toNat (a b : Byte) : (notBorrowFlag a b).toNat = if b.toNat > a.toNat then 0 else 1 := by
  rw [notBorrowFlag, flagByte_toNat]
  by_cases h : b.toNat > a.toNat <;> simp [h]

theorem notBorrowRevFlag_toNat (a b : Byte) : (notBorrowRevFlag a b).toNat = if a.toNat > b.toNat then 0 else 1 :=
  notBorrowFlag_toNat b a

theorem sub_toNat (a b : Byte) : (a - b).toNat = (a.toNat + 256 - b.toNat) % 256 := by
  have := b.isLt
  rw [BitVec.toNat_sub]
  omega

/-! ## Flag first, then a result that reads `V[X]` and `V[Y]` (R102) -/

/-- The five rows of the tables of R96, R97 and R99, for a result that is `f` of its operands as numbers: a register
that is `VF` is read as the flag. -/
theorem flagThenResult_table {op : Byte → Byte → Byte} {f : Nat → Nat → Nat}
    (hop : ∀ a b : Byte, (op a b).toNat = f a.toNat b.toNat) (x y : Reg) (flag : Byte) (s : State) :
    ∃ t, flagThenResult x y flag op s = .next t ∧ t.pc = s.pc + 2 ∧ changesOnly [x, 15] [.pc] s t ∧
      (x ≠ 15 → (t.getV 15).toNat = flag.toNat) ∧
      (x ≠ 15 → y ≠ 15 → (t.getV x).toNat = f (s.getV x).toNat (s.getV y).toNat) ∧
      (x = 15 → y ≠ 15 → (t.getV 15).toNat = f flag.toNat (s.getV y).toNat) ∧
      (x ≠ 15 → y = 15 → (t.getV x).toNat = f (s.getV x).toNat flag.toNat) ∧
      (x = 15 → y = 15 → (t.getV 15).toNat = f flag.toNat flag.toNat) := by
  obtain ⟨t, ht, hpc, _, hresult, hflag, _⟩ := flagThenResult_spec x y flag op s
  refine ⟨t, ht, hpc, flagThenResult_writesOnly (by simp) (by simp) (by simp) y flag op t ht,
    fun hx => by rw [hflag hx], fun hx hy => ?_, ?_, fun hx hy => ?_, ?_⟩
  · rw [hresult, if_neg hx, if_neg hy, hop]
  · rintro rfl hy
    rw [hresult, if_pos rfl, if_neg hy, hop]
  · rw [hresult, if_neg hx, if_pos hy, hop]
  · rintro rfl rfl
    rw [hresult, if_pos rfl, hop]

/-- Settles O30: with `X = Y = 15` the carry, at most 1, is added to itself. -/
theorem addWithCarry : Obligations.AddWithCarry := by
  intro x y s
  obtain ⟨t, ht, hpc, hframe, hvf, hxy, hx15, hy15, hboth⟩ := flagThenResult_table
    (f := fun m n => (m + n) % 256) BitVec.toNat_add x y (carryFlag (s.getV x) (s.getV y)) s
  refine ⟨(decode_eq_ok_iff _ (.addReg x y)).2 (ofNat_eq_wordXYN 0x8 x y 0x4), t, ht, hpc, hframe, fun c hc => ?_⟩
  have hle : c ≤ 1 := by rw [hc]; split <;> decide
  rw [carryFlag_toNat, ← hc] at hvf hx15 hy15 hboth
  exact ⟨hvf, hxy, hx15, hy15, fun hx hy => (hboth hx hy).trans (by omega)⟩

/-- Settles O31: with `X = Y = 15` the flag is subtracted from itself. -/
theorem subtractWithBorrow : Obligations.SubtractWithBorrow := by
  intro x y s
  obtain ⟨t, ht, hpc, hframe, hvf, hxy, hx15, hy15, hboth⟩ := flagThenResult_table
    (f := fun m n => (m + 256 - n) % 256) sub_toNat x y (notBorrowFlag (s.getV x) (s.getV y)) s
  refine ⟨(decode_eq_ok_iff _ (.subReg x y)).2 (ofNat_eq_wordXYN 0x8 x y 0x5), t, ht, hpc, hframe, fun nb hnb => ?_⟩
  rw [notBorrowFlag_toNat, ← hnb] at hvf hx15 hy15 hboth
  exact ⟨hvf, hxy, hx15, hy15, fun hx hy => (hboth hx hy).trans (by omega)⟩

/-- Settles O32: as 8XY5, with the operands of the difference and of its flag exchanged. -/
theorem subtractReversed : Obligations.SubtractReversed := by
  intro x y s
  obtain ⟨t, ht, hpc, hframe, hvf, hxy, hx15, hy15, hboth⟩ := flagThenResult_table
    (f := fun m n => (n + 256 - m) % 256) (fun a b => sub_toNat b a) x y (notBorrowRevFlag (s.getV x) (s.getV y)) s
  refine ⟨(decode_eq_ok_iff _ (.subnReg x y)).2 (ofNat_eq_wordXYN 0x8 x y 0x7), t, ht, hpc, hframe, fun nb hnb => ?_⟩
  rw [notBorrowRevFlag_toNat, ← hnb] at hvf hx15 hy15 hboth
  exact ⟨hvf, hxy, hx15, hy15, fun hx hy => (hboth hx hy).trans (by omega)⟩

end Sys2Proof.Machine
end

