-- ==== Sys2Proof/Proofs/IndexRegister.lean ====
section
/-! PROOFS. Proofs/IndexRegister.lean: the three instructions that set `I` without reading memory, and the load of
registers from memory through `I` (43_index_memory.md R110 to R112, R115, R116). -/

namespace Sys2Proof.Machine

/-! ## ANNN (R110) -/

/-- Settles O36: the word is the encoder's, and the instruction sets `I` to the zero-extended literal. -/
theorem loadIndex : Obligations.LoadIndex := fun nnn s =>
  ⟨decodeEncode (.ldIndex nnn), _, rfl, zextAddr_toNat nnn, rfl, execLdIndex_writesOnly s nnn _ rfl⟩

/-! ## FX1E (R111) -/

theorem indexFlag_toNat (w : Word) : (indexFlag w).toNat = if w.toNat > 0xFFF then 1 else 0 := by
  simp only [indexFlag, flagByte_toNat, decide_eq_true_eq]

theorem index_add_zextByte_toNat (w : Word) (b : Byte) :
    (w + zextByte b).toNat = (w.toNat + b.toNat) % 65536 := by
  rw [BitVec.toNat_add, zextByte_toNat]

theorem exec_addIndex_eq (x : Reg) (s : State) : exec (.addIndex x) s =
    .next (((s.setIndex (s.index + zextByte (s.getV x))).setV 15
      (indexFlag (s.index + zextByte (s.getV x)))).advance 2) := rfl

/-- Settles O37: the sum reads `V[X]` before the flag is written, so `X = 15` needs no case of its own. -/
theorem addToIndex : Obligations.AddToIndex := by
  refine fun x s => ⟨(decode_eq_ok_iff _ (.addIndex x)).2 (ofNat_eq_wordX 0xF 0x1E x), _, exec_addIndex_eq x s,
    index_add_zextByte_toNat _ _, ?_, rfl, execAddIndex_writesOnly s x _ rfl⟩
  rw [State.advance_getV, State.getV_setV_self]
  exact indexFlag_toNat _

/-! ## FX29 (R112) -/

/-- Settles O38: the product does not wrap, and the parameter decides how far `pc` moves. -/
theorem fontGlyphAddress : Obligations.FontGlyphAddress := by
  refine fun x s => ⟨(decode_eq_ok_iff _ (.ldFont x)).2 (ofNat_eq_wordX 0xF 0x29 x), _, rfl,
    zextByte_mul_five_toNat _, fun h => ?_, fun h => ?_, execLdFont_writesOnly s x _ rfl⟩
  · rw [State.advance_pc, State.setIndex_pc, h, fx29Delta]
  · rw [h, fx29Delta, State.advance_zero, State.setIndex_pc]

/-! ## FX65 (R115) -/

/-- The state with `V[0]` to `V[X]` loaded from `base` and up. -/
def State.loadRegsFrom (s : State) (base : Nat) (x : Reg) : State := { s with v := s.loadedRegs base x }

section

variable {x : Reg} {s : State}

theorem State.getV_loadRegsFrom_of_le {k : Reg} (base : Nat) (h : k ≤ x) :
    (s.loadRegsFrom base x).getV k = s.readByte (base + k.val) :=
  (s.loadedRegs_get base x k).trans (if_pos h)

theorem State.getV_loadRegsFrom_of_lt {k : Reg} (base : Nat) (h : x < k) :
    (s.loadRegsFrom base x).getV k = s.getV k :=
  (s.loadedRegs_get base x k).trans (if_neg (Nat.not_le_of_lt h))

theorem State.loadRegsFrom_index (base : Nat) : (s.loadRegsFrom base x).index = s.index := rfl

/-- Loading leaves `I` to the post-increment (R116). -/
theorem State.bumpIndex_loadRegsFrom_toNat (base : Nat) (h : s.index.toNat + x.val ≤ 4095) :
    ((s.loadRegsFrom base x).bumpIndex x).index.toNat = s.index.toNat + x.val + 1 := by
  rw [State.bumpIndex_toNat (by rwa [State.loadRegsFrom_index]), State.loadRegsFrom_index]

theorem exec_loadRegs_eq (x : Reg) (s : State) : exec (.loadRegs x) s =
    checkIndexed (x.val + 1) s fun s => ((s.loadRegsFrom s.baseAddress x).bumpIndex x).advance 2 := rfl

theorem exec_loadRegs_next (h : s.index.toNat + x.val ≤ 4095) :
    exec (.loadRegs x) s = .next (((s.loadRegsFrom s.index.toNat x).bumpIndex x).advance 2) := by
  rw [exec_loadRegs_eq, checkIndexed_next _ (by omega), State.baseAddress]

theorem exec_loadRegs_raised (h : s.index.toNat + x.val > 4095) :
    ∃ t, exec (.loadRegs x) s = .next t ∧ raised (.memoryOutOfBounds (max s.index.toNat 4096)) s t := by
  rw [exec_loadRegs_eq]
  exact checkIndexed_raised _ (by omega) (by omega)

end

/-- Settles O41: `V[0]` to `V[X]` are loaded after the bounds check, and every register above keeps its byte. -/
theorem registersLoaded : Obligations.RegistersLoaded := by
  refine fun x s => ⟨(decode_eq_ok_iff _ (.loadRegs x)).2 (ofNat_eq_wordX 0xF 0x65 x),
    fun h => ⟨_, exec_loadRegs_next h, fun k hk => ?_, fun k hk => ?_, ?_, rfl, ?_⟩, exec_loadRegs_raised⟩
  · rw [State.advance_getV, State.bumpIndex_getV, State.getV_loadRegsFrom_of_le _ hk]
  · rw [State.advance_getV, State.bumpIndex_getV, State.getV_loadRegsFrom_of_lt _ hk]
  · rw [State.advance_index, State.bumpIndex_loadRegsFrom_toNat _ h]
  · have hload : changesOnly (List.finRange 16) [.pc, .index] s (s.loadRegsFrom s.index.toNat x) :=
      changesOnly_setRegs s _ fun r hr => absurd (List.mem_finRange r) hr
    exact (hload.trans (changesOnly_setIndex _ (by simp) _)).trans (changesOnly_advance _ (by simp) 2)

end Sys2Proof.Machine
end

