-- ==== Sys2Proof/Proofs/Display.lean ====
section
/-! PROOFS. Proofs/Display.lean: 00E0 and DXYN, with the frames they emit and the pixel loop DXYN is written as
(44_display.md R120 to R124; 60_exceptions.md R145, R147, R150, R158). -/

namespace Sys2Proof.Machine

/-! ## 00E0 (R120) -/

theorem Frame.bytes_zero : Frame.bytes 0 = List.replicate 2048 0 := by
  simp [Frame.bytes, List.map_const']

/-- Settles O43: the word is the encoder's, and the frame emitted is the one of zeros just written. -/
theorem screenCleared : Obligations.ScreenCleared :=
  ⟨decodeEncode .cls, fun s =>
    ⟨_, rfl, Frame.pixel_zero, Frame.bytes_zero, rfl, rfl, execCls_writesOnly s _ rfl⟩⟩

/-! ## The collision flag (R121) -/

theorem flagByte_eq_one_iff (c : Bool) : flagByte c = 1 ↔ c = true := by cases c <;> decide

theorem collisionFlag_eq_zero_or_one (f : Frame) (lit : List (Nat × Nat)) :
    collisionFlag f lit = 0 ∨ collisionFlag f lit = 1 := by
  unfold collisionFlag
  cases lit.any fun p => Frame.pixel f p.1 p.2
  · exact .inl rfl
  · exact .inr rfl

theorem collisionFlag_eq_one_iff (f : Frame) (lit : List (Nat × Nat)) :
    collisionFlag f lit = 1 ↔ ∃ px py, (px, py) ∈ lit ∧ Frame.pixel f px py = true := by
  rw [collisionFlag, flagByte_eq_one_iff, List.any_eq_true, Prod.exists]

theorem collisionFlag_eq_zero_of_not {f : Frame} {lit : List (Nat × Nat)}
    (h : ¬ ∃ px py, (px, py) ∈ lit ∧ Frame.pixel f px py = true) : collisionFlag f lit = 0 :=
  (collisionFlag_eq_zero_or_one f lit).resolve_right fun hone => h ((collisionFlag_eq_one_iff f lit).1 hone)

/-! ## The pixel loop (R121) -/

theorem offGrid_eq_false_iff (p : Nat × Nat) : offGrid p = false ↔ p.1 ≤ 63 ∧ p.2 ≤ 31 := by
  simp [offGrid]

/-- Toggling a position before all others of a row-major list leaves the others as they were, so the loop, which looks
at each pixel just before it toggles it, sees the framebuffer before the sprite. -/
theorem drawLoop_eq (lit : List (Nat × Nat)) (f : Frame) (flag : Byte) (hgrid : ∀ p ∈ lit, offGrid p = false)
    (horder : lit.Pairwise fun p q => p.2 < q.2 ∨ (p.2 = q.2 ∧ p.1 < q.1)) :
    drawLoop f flag lit =
      (Frame.drawn f lit, if (lit.any fun p => Frame.pixel f p.1 p.2) then 1 else flag) := by
  induction lit generalizing f flag with
  | nil => rfl
  | cons p lit ih =>
    obtain ⟨hlater, horder⟩ := List.pairwise_cons.1 horder
    obtain ⟨hp, hgrid⟩ := List.forall_mem_cons.1 hgrid
    obtain ⟨hx, hy⟩ := (offGrid_eq_false_iff p).1 hp
    have hkept : ∀ q ∈ lit, Frame.pixel (Frame.flip f p.1 p.2) q.1 q.2 = Frame.pixel f q.1 q.2 := by
      intro q hq
      have := hlater q hq
      exact Frame.pixel_flip_ne f _ _ _ _ hx hy ((offGrid_eq_false_iff q).1 (hgrid q hq)).1 (by omega)
    have hany : (lit.any fun q => Frame.pixel (Frame.flip f p.1 p.2) q.1 q.2) =
        lit.any fun q => Frame.pixel f q.1 q.2 := by
      rw [Bool.eq_iff_iff, List.any_eq_true, List.any_eq_true]
      exact exists_congr fun q => and_congr_right fun hq => by rw [hkept q hq]
    rw [drawLoop, ih _ _ hgrid horder, hany, Frame.drawn_cons, List.any_cons]
    cases Frame.pixel f p.1 p.2
    · rfl
    · simp

/-- Settles O47: the lit positions of a sprite come in row-major order. -/
theorem drawLoopAgrees : Obligations.DrawLoopAgrees := fun s x0 y0 n hgrid =>
  drawLoop_eq _ s.fb 0 hgrid (s.litPixels_rowMajor x0 y0 n)

/-! ## What DXYN can do (R121, R123, R150) -/

/-- The positions that DXYN toggles, in row-major order. -/
def State.spritePixels (s : State) (x y : Reg) (n : Fin 16) : List (Nat × Nat) :=
  s.litPixels (s.getV x).toNat (s.getV y).toNat n.val

/-- The state DXYN leaves when it does not fault. -/
def State.drawSprite (s : State) (x y : Reg) (n : Fin 16) : State :=
  (((s.setV vf (collisionFlag s.fb (s.spritePixels x y n))).setFb
    (Frame.drawn s.fb (s.spritePixels x y n))).emitFrame).advance 2

theorem not_spriteInMemory {s : State} {n : Fin 16} (hn : 0 < n.val) (hbeyond : 4096 < s.index.toNat + n.val) :
    ¬ spriteInMemory s n := by
  rintro (h | h) <;> omega

section

variable (s : State) (x y : Reg) (n : Fin 16)

theorem State.mem_spritePixels (px py : Nat) : (px, py) ∈ s.spritePixels x y n ↔ spriteCovers s x y n px py :=
  (spriteCovers_iff s x y n px py).symm

theorem State.spritePixels_rowMajor :
    (s.spritePixels x y n).Pairwise fun p q => p.2 < q.2 ∨ (p.2 = q.2 ∧ p.1 < q.1) :=
  s.litPixels_rowMajor _ _ _

theorem find?_offGrid_eq_none_iff :
    (s.spritePixels x y n).find? offGrid = none ↔ spriteOnGrid s x y n := by
  simp only [List.find?_eq_none, Bool.not_eq_true, spriteOnGrid_iff, State.spritePixels]

/-- DXYN reports sprite bytes beyond memory, else the first lit bit off the grid, else it draws. -/
theorem exec_drw_cases :
    (exec (.drw x y n) s = raiseFault s (.memoryOutOfBounds (max s.index.toNat 4096)) ∧ ¬ spriteInMemory s n) ∨
      (∃ p, exec (.drw x y n) s = raiseFault s (.displayOutOfBounds p.1 p.2) ∧ spriteInMemory s n ∧
        (s.spritePixels x y n).find? offGrid = some p) ∨
      (exec (.drw x y n) s = .next (s.drawSprite x y n) ∧ spriteInMemory s n ∧ spriteOnGrid s x y n) := by
  obtain ⟨hbad, hn, hbeyond⟩ | ⟨hbad, hmem⟩ := badAddress_cases s.index.toNat n.val
  · exact .inl ⟨by simp only [exec, execDrw, State.baseAddress, hbad], not_spriteInMemory hn hbeyond⟩
  · cases hfind : (s.spritePixels x y n).find? offGrid with
    | some p =>
      rw [State.spritePixels] at hfind
      exact .inr (.inl ⟨p, by simp only [exec, execDrw, State.baseAddress, hbad, hfind], hmem, rfl⟩)
    | none =>
      have hgrid := (find?_offGrid_eq_none_iff s x y n).1 hfind
      rw [State.spritePixels] at hfind
      refine .inr (.inr ⟨?_, hmem, hgrid⟩)
      simp only [exec, execDrw, State.baseAddress, hbad, hfind, State.drawSprite, State.spritePixels]

end

section

variable {s : State} {x y : Reg} {n : Fin 16}

theorem exec_drw_next (hmem : spriteInMemory s n) (hgrid : spriteOnGrid s x y n) :
    exec (.drw x y n) s = .next (s.drawSprite x y n) := by
  obtain ⟨_, hbeyond⟩ | ⟨p, _, _, hfind⟩ | ⟨e, _⟩ := exec_drw_cases s x y n
  · exact absurd hmem hbeyond
  · cases hfind.symm.trans ((find?_offGrid_eq_none_iff s x y n).2 hgrid)
  · exact e

theorem exec_drw_raised_memory (hbeyond : ¬ spriteInMemory s n) :
    ∃ t, exec (.drw x y n) s = .next t ∧ raised (.memoryOutOfBounds (max s.index.toNat 4096)) s t := by
  obtain ⟨e, _⟩ | ⟨_, _, hmem, _⟩ | ⟨_, hmem, _⟩ := exec_drw_cases s x y n
  · rw [e]
    exact raiseFault_raised s _
  · exact absurd hmem hbeyond
  · exact absurd hmem hbeyond

theorem exec_drw_raised_display (hmem : spriteInMemory s n) {p : Nat × Nat}
    (hfind : (s.spritePixels x y n).find? offGrid = some p) :
    ∃ t, exec (.drw x y n) s = .next t ∧ raised (.displayOutOfBounds p.1 p.2) s t := by
  obtain ⟨_, hbeyond⟩ | ⟨q, e, _, hq⟩ | ⟨_, _, hgrid⟩ := exec_drw_cases s x y n
  · exact absurd hmem hbeyond
  · obtain rfl := Option.some.inj (hfind.symm.trans hq)
    rw [e]
    exact raiseFault_raised s _
  · cases hfind.symm.trans ((find?_offGrid_eq_none_iff s x y n).2 hgrid)

end

/-! ## The frames emitted (R124, R158) -/

/-- Settles O16: of the two instructions that may write the events, 00E0 emits the frame it leaves, and DXYN either
draws and does so too or raises a fault. -/
theorem frameEvents : Obligations.FrameEvents := by
  intro i s t hfault ht
  cases i with
  | cls =>
    cases ht
    rfl
  | drw x y n =>
    have hraised (f : Fault) (h : raiseFault s f = .next t) :
        t.events = s.events ++ if t.fault = none then [.frameReady t.fb] else [] := by
      cases h
      simp [hfault]
    obtain ⟨e, _⟩ | ⟨_, e, _⟩ | ⟨e, _⟩ := exec_drw_cases s x y n
    · exact hraised _ (e.symm.trans ht)
    · exact hraised _ (e.symm.trans ht)
    · cases e.symm.trans ht
      exact congrArg (s.events ++ ·) (if_pos hfault).symm
  | _ =>
    have hkept : t.events = s.events := (exec_writesOnly _ s t ht).2 .events (by simp [partWriters])
    exact hkept.trans (List.append_nil _).symm

/-! ## A sprite in memory and on the grid (R121, R122) -/

section

variable (s : State) (x y : Reg) (n : Fin 16)

theorem State.drawSprite_fb : (s.drawSprite x y n).fb = Frame.drawn s.fb (s.spritePixels x y n) := rfl

theorem State.drawSprite_getV_vf :
    (s.drawSprite x y n).getV 15 = collisionFlag s.fb (s.spritePixels x y n) :=
  s.getV_setV_self vf _

theorem State.drawSprite_getV_ne {r : Reg} (h : r ≠ 15) : (s.drawSprite x y n).getV r = s.getV r :=
  s.getV_setV_ne vf r _ h

theorem State.drawSprite_frame : changesOnly [15] [.pc, .display, .events] s (s.drawSprite x y n) :=
  (((changesOnly_setV s (by simp) _).trans (changesOnly_setFb _ (by simp) _)).trans
    (changesOnly_emitFrame _ (by simp))).trans (changesOnly_advance _ (by simp) 2)

end

section

variable {s : State} {x y : Reg} {n : Fin 16} (hgrid : spriteOnGrid s x y n) {px py : Nat}
include hgrid

theorem State.drawSprite_pixel (hx : px ≤ 63) (hy : py ≤ 31) :
    Frame.pixel (s.drawSprite x y n).fb px py =
      (Frame.pixel s.fb px py ^^ decide ((px, py) ∈ s.spritePixels x y n)) :=
  Frame.getLsbD_drawn _ s.fb px py hx hy ((spriteOnGrid_iff s x y n).1 hgrid) (s.spritePixels_rowMajor x y n)

theorem State.drawSprite_pixel_of_covers (h : spriteCovers s x y n px py) :
    Frame.pixel (s.drawSprite x y n).fb px py = !Frame.pixel s.fb px py := by
  obtain ⟨hx, hy⟩ := hgrid px py h
  rw [State.drawSprite_pixel hgrid hx hy, decide_eq_true ((s.mem_spritePixels x y n px py).2 h), Bool.xor_true]

theorem State.drawSprite_pixel_of_not_covers (hx : px ≤ 63) (hy : py ≤ 31) (h : ¬ spriteCovers s x y n px py) :
    Frame.pixel (s.drawSprite x y n).fb px py = Frame.pixel s.fb px py := by
  rw [State.drawSprite_pixel hgrid hx hy, decide_eq_false (mt (s.mem_spritePixels x y n px py).1 h), Bool.xor_false]

end

/-- Settles O44: the word is the encoder's, and the state DXYN leaves has the pixels, the flag and the frame named. -/
theorem spriteDrawn : Obligations.SpriteDrawn := by
  refine fun x y n s => ⟨decodeEncode (.drw x y n), fun hmem hgrid => ⟨_, exec_drw_next hmem hgrid,
    fun px py _ _ => State.drawSprite_pixel_of_covers hgrid,
    fun px py hx hy => State.drawSprite_pixel_of_not_covers hgrid hx hy, ?_, ?_, rfl, rfl,
    s.drawSprite_frame x y n⟩⟩
  · simp only [← s.mem_spritePixels, s.drawSprite_getV_vf]
    exact (collisionFlag_eq_one_iff s.fb _).2
  · simp only [← s.mem_spritePixels, s.drawSprite_getV_vf]
    exact collisionFlag_eq_zero_of_not

/-! ## A sprite beyond memory or off the grid (R123, R145, R147, R150) -/

/-- In a list ordered by `R`, the element that passes the test while none before it by `R` does is the first found. -/
theorem find?_eq_some_of_pairwise {α : Type} {R : α → α → Prop} {test : α → Bool} {l : List α} (horder : l.Pairwise R)
    {a : α} (ha : a ∈ l) (htest : test a = true) (hbefore : ∀ b ∈ l, R b a → test b = false) :
    l.find? test = some a := by
  induction l with
  | nil => cases ha
  | cons b l ih =>
    obtain ⟨hb, horder⟩ := List.pairwise_cons.1 horder
    obtain rfl | hmem := List.mem_cons.1 ha
    · exact List.find?_cons_of_pos htest
    · have hfail : ¬ test b = true := by simp [hbefore b (by simp) (hb a hmem)]
      rw [List.find?_cons_of_neg hfail]
      exact ih horder hmem fun c hc => hbefore c (by simp [hc])

/-- Settles O45: the memory check comes first; the search for a lit bit off the grid goes in row-major order. -/
theorem spriteFaults : Obligations.SpriteFaults := by
  refine fun x y n s => ⟨fun hn hbeyond => ?_, fun hmem r c hlit hoff hfirst => ?_⟩
  · exact exec_drw_raised_memory (not_spriteInMemory hn (by omega))
  · refine exec_drw_raised_display (p := ((s.getV x).toNat + c, (s.getV y).toNat + r)) hmem
      (find?_eq_some_of_pairwise (s.spritePixels_rowMajor x y n)
        ((s.mem_spritePixels x y n _ _).2 ⟨r, c, hlit, rfl, rfl⟩) (by simpa [offGrid] using hoff) ?_)
    rintro ⟨px, py⟩ hq hbefore
    obtain ⟨r', c', hlit', rfl, rfl⟩ := (s.mem_spritePixels x y n px py).1 hq
    exact (offGrid_eq_false_iff _).2 (hfirst r' c' hlit' (by dsimp only at hbefore; omega))

/-! ## Drawing twice (R121) -/

section

variable {s : State} {x y x' y' : Reg} (n : Fin 16)

theorem State.litPixels_drawSprite (x0 y0 rows : Nat) :
    (s.drawSprite x y n).litPixels x0 y0 rows = s.litPixels x0 y0 rows := rfl

/-- A draw leaves memory and `I` as they were, so the same coordinates give the same positions. -/
theorem State.spritePixels_drawSprite (hx : (s.drawSprite x y n).getV x' = s.getV x)
    (hy : (s.drawSprite x y n).getV y' = s.getV y) :
    (s.drawSprite x y n).spritePixels x' y' n = s.spritePixels x y n := by
  rw [State.spritePixels, hx, hy, State.litPixels_drawSprite, State.spritePixels]

theorem exec_drw_drawSprite (hmem : spriteInMemory s n) (hgrid : spriteOnGrid s x y n)
    (hx : (s.drawSprite x y n).getV x' = s.getV x) (hy : (s.drawSprite x y n).getV y' = s.getV y) :
    exec (.drw x' y' n) (s.drawSprite x y n) = .next ((s.drawSprite x y n).drawSprite x' y' n) := by
  refine exec_drw_next hmem ?_
  rwa [← find?_offGrid_eq_none_iff, State.spritePixels_drawSprite n hx hy, find?_offGrid_eq_none_iff]

end

/-- Settles O46: the second draw toggles the positions of the first back, and the pixels it finds set are those the
first found clear. -/
theorem drawTwiceRestores : Obligations.DrawTwiceRestores := by
  refine fun x y n s hmem hgrid => ⟨_, exec_drw_next hmem hgrid, s.drawSprite_getV_ne x y n,
    s.drawSprite_getV_ne x y n, fun x' y' hx hy => ⟨_, exec_drw_drawSprite n hmem hgrid hx hy, ?_, ?_, ?_⟩⟩
  · rw [State.drawSprite_fb, State.spritePixels_drawSprite n hx hy, State.drawSprite_fb, Frame.drawn_drawn]
  · rw [State.drawSprite_getV_vf, State.spritePixels_drawSprite n hx hy, collisionFlag_eq_one_iff]
    refine exists_congr fun px => exists_congr fun py => ?_
    rw [State.mem_spritePixels]
    refine and_congr_right fun hcovers => ?_
    rw [State.drawSprite_pixel_of_covers hgrid hcovers, Bool.not_eq_true']
  · rw [State.drawSprite_getV_vf]
    exact collisionFlag_eq_zero_or_one _ _

end Sys2Proof.Machine
end

