-- ==== Sys2Proof/Proofs/KeypadTimers.lean ====
section
/-! PROOFS. Proofs/KeypadTimers.lean: the skips on a key, the wait for a key, and the instructions that read and set the
timers (45_keypad_timers.md R130 to R135, R155; 60_exceptions.md R146; 70_reset_and_hazards.md R174). -/

namespace Sys2Proof.Machine

/-! ## The skips on a key (R130, R131, R146) -/

theorem keyOf_eq_some {b : Byte} {k : Reg} (h : b.toNat = k.val) : keyOf b = some k := by
  obtain ⟨j, e, hj⟩ | ⟨_, hbeyond⟩ := keyOf_cases b
  · rw [e, Fin.ext (hj.symm.trans h)]
  · omega

theorem keyOf_eq_none {b : Byte} (h : 15 < b.toNat) : keyOf b = none := by
  obtain ⟨j, _, hj⟩ | ⟨e, _⟩ := keyOf_cases b
  · omega
  · exact e

section

variable {x : Reg} {s : State} (level : Bool)

theorem skipIfKey_spec {k : Reg} (h : (s.getV x).toNat = k.val) :
    ∃ t, skipIfKey x level s = .next t ∧ t.pc = (if s.keys[k.val] = level then s.pc + 4 else s.pc + 2) ∧
      changesOnly [] [.pc] s t := by
  simp only [skipIfKey, keyOf_eq_some h]
  exact skipIf_spec beq_iff_eq s

theorem skipIfKey_raised (h : 15 < (s.getV x).toNat) :
    ∃ t, skipIfKey x level s = .next t ∧ raised (.keyIndexOutOfRange (s.getV x)) s t := by
  simp only [skipIfKey, keyOf_eq_none h]
  exact raiseFault_raised s _

end

/-- Settles O48: both instructions are the same skip, at opposite levels of the key. -/
theorem keySkips : Obligations.KeySkips := fun x _ =>
  ⟨(decode_eq_ok_iff _ (.skp x)).2 (ofNat_eq_wordX 0xE 0x9E x),
    (decode_eq_ok_iff _ (.sknp x)).2 (ofNat_eq_wordX 0xE 0xA1 x),
    fun _ hk => ⟨skipIfKey_spec true hk, skipIfKey_spec false hk⟩,
    fun hbeyond => ⟨skipIfKey_raised true hbeyond, skipIfKey_raised false hbeyond⟩⟩

/-! ## The wait for a key (R133) -/

theorem State.highestKey_eq_some {s : State} {k : Reg} (hk : s.keys[k.val] = true)
    (habove : ∀ j : Reg, k < j → s.keys[j.val] = false) : s.highestKey = some k := by
  obtain ⟨m, e, hm, hmabove⟩ | ⟨_, hnone⟩ := s.highestKey_cases
  · obtain hlt | rfl | hgt := lt_trichotomy m k
    · cases hk.symm.trans (hmabove k hlt)
    · exact e
    · cases hm.symm.trans (habove m hgt)
  · cases hk.symm.trans (hnone k)

theorem exec_ldKey_pressed (x : Reg) {s : State} {k : Reg} (h : s.highestKey = some k) :
    exec (.ldKey x) s = writeReg x (BitVec.ofNat 8 k.val) s := by
  simp only [exec, execLdKey, h]

/-- Settles O50: the highest pressed key is unique, and its number fits in a byte. -/
theorem keyWait : Obligations.KeyWait := by
  refine fun x s => ⟨(decode_eq_ok_iff _ (.ldKey x)).2 (ofNat_eq_wordX 0xF 0x0A x), fun k hk habove => ?_,
    exec_ldKey_blocked x⟩
  obtain ⟨t, ht, hresult, hpc, hframe⟩ := writeReg_spec x (BitVec.ofNat 8 k.val) s
  refine ⟨t, (exec_ldKey_pressed x (State.highestKey_eq_some hk habove)).trans ht, ?_, hpc, hframe⟩
  rw [hresult, BitVec.toNat_ofNat]
  omega

/-! ## The timers (R132, R134, R135) -/

theorem exec_ldDtVx_spec (x : Reg) (s : State) :
    ∃ t, exec (.ldDtVx x) s = .next t ∧ t.dt = s.getV x ∧ t.pc = s.pc + 2 ∧
      changesOnly [] [.pc, .delayTimer] s t :=
  ⟨_, rfl, rfl, rfl, exec_writesOnly (.ldDtVx x) s _ rfl⟩

theorem exec_ldStVx_spec (x : Reg) (s : State) :
    ∃ t, exec (.ldStVx x) s = .next t ∧ t.st = s.getV x ∧ t.pc = s.pc + 2 ∧
      changesOnly [] [.pc, .soundTimer] s t :=
  ⟨_, rfl, rfl, rfl, exec_writesOnly (.ldStVx x) s _ rfl⟩

/-- Settles O49: one register write, and one write to each timer, whose frames leave the events out. -/
theorem timersReadAndSet : Obligations.TimersReadAndSet := fun x s =>
  ⟨(decode_eq_ok_iff _ (.ldVxDt x)).2 (ofNat_eq_wordX 0xF 0x07 x),
    (decode_eq_ok_iff _ (.ldDtVx x)).2 (ofNat_eq_wordX 0xF 0x15 x),
    (decode_eq_ok_iff _ (.ldStVx x)).2 (ofNat_eq_wordX 0xF 0x18 x),
    writeReg_spec x s.dt s, exec_ldDtVx_spec x s, exec_ldStVx_spec x s⟩

/-! ## The sound timer in its own cycle (R155, R174) -/

/-- Settles O18: the instruction leaves the cycle Normal and the events as they were, so the tick counts and beeps from
the `V[X]` just written. -/
theorem soundTimerSameCycle : Obligations.SoundTimerSameCycle := by
  intro s op x hfault hfetch hdecode
  obtain ⟨u, hexec, hst, _, hframe⟩ := exec_ldStVx_spec x (s.beginCycle op)
  have hresult : u.result = some .normal := hframe.2 .result (by simp)
  have hevents : u.events = s.events := hframe.2 .events (by simp)
  have hset : u.st = s.getV x := hst
  have hsame : changesOnly [] [] u u := changesOnly_refl u
  obtain ⟨_, hcount, hbeep⟩ := hsame.tick_counts (by simp) (by simp) (by simp)
  have hstep := step_of_exec_next hfault hfetch hdecode hexec
  rw [u.finishCycle_normal hresult] at hstep
  rw [hset] at hcount hbeep
  rw [hevents] at hbeep
  exact ⟨u.tick, hstep, hresult, hcount, hbeep⟩

end Sys2Proof.Machine
end

