-- ==== Sys2Proof/Proofs/Exceptions.lean ====
section
/-! PROOFS. Proofs/Exceptions.lean: a fault discards whatever its cycle would have done (60_exceptions.md R148). -/

namespace Sys2Proof.Machine

/-! ## What a cycle that latches a fault has done -/

section

variable {s t : State}

theorem raised_of_raiseFault {f : Fault} (h : raiseFault s f = .next t) : raised f s t := by
  obtain ⟨_, ht, hraised⟩ := raiseFault_raised s f
  cases h.symm.trans ht
  exact hraised

/-- Of the three ways an instruction ends its cycle, raising a fault is the only one that sets a clear latch. -/
theorem exists_raised_of_completes {r : Result} (h : Completes s r) (ht : r = .next t) (hfault : s.fault = none)
    (hlatched : t.fault ≠ none) : ∃ f, raised f s t := by
  cases h with
  | raised f => exact ⟨f, raised_of_raiseFault ht⟩
  | blocked =>
    cases ht
    exact absurd hfault hlatched
  | done hkept =>
    cases ht
    exact absurd (hkept.trans hfault) hlatched

/-- A fault raised after the fetch leaves the recorded word as the cycle's one other trace. -/
theorem raised.precise_of_beginCycle {f : Fault} {op : Word} (h : raised f (s.beginCycle op) t) :
    t.result = some .faulted ∧ changesOnly [] [.fault, .result, .opcode] s t := by
  obtain ⟨_, hresult, hframe⟩ := h
  exact ⟨hresult, (changesOnly_beginCycle s (by simp) (by simp) op).trans (hframe.mono (by simp) (by simp))⟩

end

/-- Settles O12: the fetch, the decoder or the instruction raises the fault, and a Faulted cycle does not tick. -/
theorem faultsPrecise : Obligations.FaultsPrecise := by
  intro s t hfault hstep hlatched
  obtain ⟨f, hhalted, _⟩ | ⟨a, _, _, ht⟩ | ⟨op, e, _, _, _, ht⟩ | ⟨op, i, u, _, _, _, hexec, rfl⟩ :=
    step_next_cases hstep
  · cases hfault.symm.trans hhalted
  · obtain ⟨_, hresult, hframe⟩ := raised_of_raiseFault ht
    exact ⟨hresult, hframe.mono (by simp) (by simp)⟩
  · exact (raised_of_raiseFault ht).precise_of_beginCycle
  · rw [State.finishCycle_fault] at hlatched
    obtain ⟨f, hraised⟩ := exists_raised_of_completes (exec_completes i (s.beginCycle op)) hexec hfault hlatched
    have hprecise := hraised.precise_of_beginCycle
    rwa [u.finishCycle_faulted hprecise.1]

end Sys2Proof.Machine
end
